-- ==== Sys2Proof/Word.lean ====
section
/-! DEFINITION. The word types of ADCBB: the 32-bit bus word, the 24-bit raw shift result and the level of a line.
Notation of 00_scope.md rule R9. -/

namespace Sys2Proof

/-- A 32-bit bus word (rules R36, R47). -/
abbrev Word := BitVec 32

/-- A 24-bit raw shift result (rules R12, R18, R27). -/
abbrev Raw24 := BitVec 24

/-- The level of one of the two lines: `false` is 0 = LOW, `true` is 1 = HIGH (rule R9). -/
abbrev Level := Bool

/-- `zext_32`, `zext_24` … of rule R9: the same unsigned value at another width. -/
abbrev zext {v : Nat} (w : Nat) (x : BitVec v) : BitVec w := x.setWidth w

/-- `trunc_32` of rule R9: an integer modulo `2^32`, as a word. -/
abbrev trunc32 (x : Int) : Word := BitVec.ofInt 32 x

end Sys2Proof
end

