-- ==== Sys2Proof/Config.lean ====
section
/-! DEFINITION. What lies outside the block: the constants of rule R8, the platform's parameters of rule R7,
the vocabulary in which the outside world acts on the block (bus accesses, whose turn it is), and the free values. -/

namespace Sys2Proof

/-- `DATA_BITS` (rules R7, R8): data pulses in one read. -/
def Config.dataBits : Nat := 24

/-- `EXTRA_PULSES` (rules R7, R8): clock pulses after the data pulses of one read. -/
def Config.extraPulses : Nat := 1

/-- `SIGN_BIT` (rule R7). -/
def Config.signBit : Nat := 23

/-- The five OPEN time intervals of rule R128, in a unit the platform chooses. No step reads them: the model has
no time (rule R110; log 14). -/
structure Config.Timing where
  readyToRise : Nat
  riseToSample : Nat
  high : Nat
  low : Nat
  poll : Nat
deriving DecidableEq, Repr

/-- The OPEN parameters of rule R7: fixed by the platform, never changed by a step (log 5). -/
structure Config.Params where
  /-- `BASE`: bus address of the register window (rule R33). -/
  base : Nat
  /-- `READY_TIMEOUT`: `none`, or `some k` with `k ≥ 1` (decision D5). -/
  readyTimeout : Option Nat
  /-- The intervals of rule R128. -/
  timing : Config.Timing
deriving DecidableEq, Repr

/-- The parameters that `State.reset` carries. `readyTimeout := none` is the spec's default (rule R7, decision D5).
DESIGN CHOICE (log 5): the spec gives `BASE` and the intervals no value; every statement is over all of them. -/
def Config.defaultParams : Config.Params :=
  { base := 0
    readyTimeout := none
    timing := { readyToRise := 1, riseToSample := 1, high := 1, low := 1, poll := 1 } }

/-- Direction of a bus transaction (rule R47). -/
inductive Dir where
  | read
  | write
deriving DecidableEq, Repr

/-- One bus access of the host (rules R9, R47): direction, bus address, width in bytes and, for a write, the data word.
A read's `data` is not looked at. -/
structure Access where
  dir : Dir
  addr : Nat
  size : Nat
  data : Word
deriving DecidableEq, Repr

/-- Which agent's step comes next (rules R10, R109). DESIGN CHOICE (log 1): the open interleaving is data. -/
inductive Turn where
  | engine
  | host (a : Access)
  | reset
deriving DecidableEq, Repr

/-- A turn from outside the block: an access of the host, or, where there is none, a reset. -/
def Turn.outside : Option Access → Turn
  | some a => .host a
  | none => .reset

/-- FREE VALUE (rules R10, R105, R110; log 1): the turns that stand listed after the k-th step for which none was listed. Each
list is finite, so the engine is weakly fair. -/
opaque Config.freeTurns : Nat → List Turn

/-- FREE VALUE (rules R10, R61; log 1): what comes from outside, an access or a reset, when the k-th step for which no turn
was listed finds the engine without a step. -/
opaque Config.freeOutside : Nat → Option Access

/-- FREE VALUE (rule R11, decision D20; log 3): the level of the data line at the k-th draw that no listed level answers. -/
opaque Config.freeDout : Nat → Level

/-- FREE VALUE (rule R93 gives `floor_div(a, b)` for b ≥ 1 only; log 6): the quotient of `a` by zero.
No run reaches it (rule R97). -/
opaque Config.freeQuotient : Int → Int

end Sys2Proof
end

