-- ==== Sys2Proof/Syntax.lean ====
section
/-! DEFINITION. The operations of ADCBB (30_encoding.md rule R57, opcode_table.json) and what selects them. -/

namespace Sys2Proof

/-- `PHASE`, the engine's sequencing state (rule R16). Its numeric encoding is not visible (93 U14). -/
inductive Phase where
  | idle
  | wait
  | rise
  | sample
  | fall
  | xrise
  | xfall
  | finish
deriving DecidableEq, Repr

/-- The four registers of the window (rule R33). -/
inductive Reg where
  | cmd
  | status
  | result
  | raw
deriving DecidableEq, Repr

/-- The read-only registers, which `WR_RO` writes to without effect (rules R33, R38). -/
inductive RoReg where
  | status
  | result
  | raw
deriving DecidableEq, Repr

/-- One constructor per row of the opcode table (rule R57). -/
inductive Instr where
  /-- IS_READY: read STATUS (rule R80). -/
  | isReady
  /-- RD_RESULT: read RESULT (rule R81). -/
  | rdResult
  /-- RD_RAW: read RAW (rule R82). -/
  | rdRaw
  /-- RD_CMD: read CMD (rule R89). -/
  | rdCmd
  /-- READ_RAW: start one read (rule R83). Bits 15:8 of its word are ignored, so it has no operand (rule R49). -/
  | readRaw
  /-- READ_AVG: start an averaged read of `n` samples (rule R84). -/
  | readAvg (n : BitVec 8)
  /-- CMD_AVG_ZERO: refused READ_AVG of zero samples (rule R86). -/
  | cmdAvgZero
  /-- CMD_ILLEGAL_00 (rule R86). -/
  | cmdIllegal00
  /-- CMD_ILLEGAL_11 (rule R86). -/
  | cmdIllegal11
  /-- WR_RO: write `data` to a read-only register (rule R89). -/
  | wrRo (reg : RoReg) (data : Word)
  /-- POLL (rule R66). -/
  | poll
  /-- RISE (rule R68). -/
  | rise
  /-- SAMPLE (rule R69). -/
  | sample
  /-- FALL (rule R70). -/
  | fall
  /-- XRISE (rule R71). -/
  | xrise
  /-- XFALL (rule R72). -/
  | xfall
  /-- FINISH (rule R73). -/
  | finish
deriving DecidableEq, Repr

/-- What selects an operation (rules R48, R57): a bus access of the host, or the engine's PHASE. -/
inductive Selector where
  | access (a : Access)
  | phase (p : Phase)
deriving DecidableEq, Repr

end Sys2Proof
end

