-- ==== Sys2Proof/WellFormed.lean ====
section
/-! DEFINITION. The checks on instructions and parameters that the spec states beside their shape. -/

namespace Sys2Proof

/-- READ_AVG takes n in 1..255; n = 0 is CMD_AVG_ZERO (rules R49, R52, R84). Every other operand is unrestricted. -/
def Instr.wellFormed : Instr → Bool
  | .readAvg n => n != 0
  | .isReady | .rdResult | .rdRaw | .rdCmd | .readRaw | .cmdAvgZero | .cmdIllegal00 | .cmdIllegal11
  | .wrRo _ _ | .poll | .rise | .sample | .fall | .xrise | .xfall | .finish => true

/-- The intervals are strictly positive (rule R128). -/
def Config.Timing.wellFormed (t : Config.Timing) : Bool :=
  t.readyToRise != 0 && t.riseToSample != 0 && t.high != 0 && t.low != 0 && t.poll != 0

/-- `READY_TIMEOUT = some k` has k ≥ 1 (rule R7), and the intervals are positive (rule R128). -/
def Config.Params.wellFormed (p : Config.Params) : Bool :=
  p.readyTimeout != some 0 && p.timing.wellFormed

/-- Whether an operation is a bus access of the host; the others are engine steps (rules R10, R57). -/
def Instr.isHost : Instr → Bool
  | .isReady | .rdResult | .rdRaw | .rdCmd | .readRaw | .readAvg _ | .cmdAvgZero | .cmdIllegal00 | .cmdIllegal11
  | .wrRo _ _ => true
  | .poll | .rise | .sample | .fall | .xrise | .xfall | .finish => false

end Sys2Proof
end

