-- ==== Sys2Proof/Decode.lean ====
section
/-! DEFINITION. Decoding of bus accesses and of PHASE into operations (rules R35, R47 to R57), and the encoder. -/

namespace Sys2Proof

/-- Why a bus access is unsupported (rule R35). -/
inductive AccessError where
  /-- Not a 32-bit access. -/
  | width
  /-- Not in the 16-byte window at `BASE`. -/
  | outside
  /-- `(addr − BASE) mod 4 ≠ 0`. -/
  | misaligned
deriving DecidableEq, Repr

/-- Why a selector selects no operation. -/
inductive DecodeError where
  /-- The access is not of the form of rule R35. -/
  | unsupported (why : AccessError)
  /-- PHASE = IDLE has no engine step (rule R57). -/
  | engineIdle
deriving DecidableEq, Repr

/-- Offset of a register in the window (rule R33). -/
def Reg.offset : Reg → Nat
  | .cmd => 0x00
  | .status => 0x04
  | .result => 0x08
  | .raw => 0x0C

/-- The register at an offset of the window; no register stands at a misaligned offset (rules R33, R35). -/
def Reg.ofOffset (off : Nat) : Option Reg :=
  if off = 0x00 then some .cmd
  else if off = 0x04 then some .status
  else if off = 0x08 then some .result
  else if off = 0x0C then some .raw
  else none

/-- A read-only register as a register of the window. -/
def RoReg.toReg : RoReg → Reg
  | .status => .status
  | .result => .result
  | .raw => .raw

/-- The register an access addresses, or why it is unsupported (rule R35). -/
def Access.resolve (base : Nat) (a : Access) : Except AccessError Reg :=
  if a.size ≠ 4 then .error .width
  else if a.addr < base ∨ base + 16 ≤ a.addr then .error .outside
  else
    match Reg.ofOffset (a.addr - base) with
    | some r => .ok r
    | none => .error .misaligned

/-- Field OP of a command word, bits 1:0 (rules R50, R53). -/
def opField (w : Word) : BitVec 2 := w.extractLsb' 0 2

/-- Field N of a command word, bits 15:8 (rules R49, R53). -/
def nField (w : Word) : BitVec 8 := w.extractLsb' 8 8

/-- The command a command word selects (rules R50, R52, R57): the reserved bits play no part (rule R51). -/
def decodeCommand (w : Word) : Instr :=
  if opField w = 0b00#2 then .cmdIllegal00
  else if opField w = 0b11#2 then .cmdIllegal11
  else if opField w = 0b01#2 then .readRaw
  else if nField w = 0 then .cmdAvgZero
  else .readAvg (nField w)

/-- The operation a transaction `(dir, off, data)` selects (rules R47, R48, R57). -/
def decodeTransaction (dir : Dir) (reg : Reg) (data : Word) : Instr :=
  match dir, reg with
  | .read, .cmd => .rdCmd
  | .read, .status => .isReady
  | .read, .result => .rdResult
  | .read, .raw => .rdRaw
  | .write, .cmd => decodeCommand data
  | .write, .status => .wrRo .status data
  | .write, .result => .wrRo .result data
  | .write, .raw => .wrRo .raw data

/-- The operation a bus access selects (rules R35, R57). -/
def decodeAccess (base : Nat) (a : Access) : Except AccessError Instr :=
  match a.resolve base with
  | .ok reg => .ok (decodeTransaction a.dir reg a.data)
  | .error e => .error e

/-- The engine step that PHASE selects (rules R57, R61). -/
def decodePhase : Phase → Option Instr
  | .idle => none
  | .wait => some .poll
  | .rise => some .rise
  | .sample => some .sample
  | .fall => some .fall
  | .xrise => some .xrise
  | .xfall => some .xfall
  | .finish => some .finish

/-- Decoding, total on every selector. -/
def decode (base : Nat) : Selector → Except DecodeError Instr
  | .access a =>
    match decodeAccess base a with
    | .ok i => .ok i
    | .error e => .error (.unsupported e)
  | .phase p =>
    match decodePhase p with
    | some i => .ok i
    | none => .error .engineIdle

/-! ## The encoder -/

/-- `MemRead(BASE + off, 4)` (rule R9). A read carries no data word; the encoder leaves it 0. -/
def readAccess (base : Nat) (reg : Reg) : Access :=
  { dir := .read, addr := base + reg.offset, size := 4, data := 0 }

/-- `MemWrite(BASE + off, 4, w)` (rule R9). -/
def writeAccess (base : Nat) (reg : Reg) (w : Word) : Access :=
  { dir := .write, addr := base + reg.offset, size := 4, data := w }

/-- `(n << 8) OR 0x00000002`, the word of `READ_AVG n` (rule R58). -/
def readAvgWord (n : BitVec 8) : Word := ((zext 32 n) <<< 8) ||| 0x00000002

/-- What selects an instruction: the access of rules R57 and R58 with its reserved bits 0 (rule R51), or the PHASE value. -/
def encode (base : Nat) : Instr → Selector
  | .isReady => .access (readAccess base .status)
  | .rdResult => .access (readAccess base .result)
  | .rdRaw => .access (readAccess base .raw)
  | .rdCmd => .access (readAccess base .cmd)
  | .readRaw => .access (writeAccess base .cmd 0x00000001)
  | .readAvg n => .access (writeAccess base .cmd (readAvgWord n))
  | .cmdAvgZero => .access (writeAccess base .cmd 0x00000002)
  | .cmdIllegal00 => .access (writeAccess base .cmd 0x00000000)
  | .cmdIllegal11 => .access (writeAccess base .cmd 0x00000003)
  | .wrRo reg data => .access (writeAccess base reg.toReg data)
  | .poll => .phase .wait
  | .rise => .phase .rise
  | .sample => .phase .sample
  | .fall => .phase .fall
  | .xrise => .phase .xrise
  | .xfall => .phase .xfall
  | .finish => .phase .finish

/-! ## The table's words -/

/-- The access that carries a word of the opcode table: rule R57 gives the table's bits as the 32-bit data word of a write
to CMD. `nbits` bits are given, the bits above are 0; more than 32 bits is no transaction of rule R48, and its
width is refused. DEDUCED (log 9). -/
def tableAccess (base nbits w : Nat) : Access :=
  { dir := .write
    addr := base + Reg.cmd.offset
    size := if nbits ≤ 32 then 4 else (nbits + 7) / 8
    data := BitVec.ofNat 32 (w % 2 ^ nbits) }

/-- The instruction the decoder reads from a word of the opcode table (log 9). -/
def decodeTableWord (nbits w : Nat) : Option Instr :=
  match decodeAccess 0 (tableAccess 0 nbits w) with
  | .ok i => some i
  | .error _ => none

end Sys2Proof
end

