-- ==== Sys2Proof/Machine/State.lean ====
section
/-! DEFINITION. The state of ADCBB (10_state.md rule R13), the outside world's inputs beside it, the reasons a step can
stop, and the state after reset. -/

namespace Sys2Proof.Machine

/-- The REJECT codes (rule R25). 0b11 is never written, so it has no constructor (93 U15). -/
inductive Reject where
  | none
  | illegal
  | busy
deriving DecidableEq, Repr

/-- The state of a step: the block's thirteen elements of rule R13, then the platform's parameters, then the model's own
fields that stand for the outside world. DEDUCED: the widths of rule R13 are the fields' types (log 11), and there is no
memory (rule R34; log 13). -/
structure State where
  /-- `SCK`, the clock line (rule R14). -/
  sck : Level
  /-- `PHASE` (rule R16). -/
  phase : Phase
  /-- `BITCNT`, 5 bits (rule R17). -/
  bitcnt : BitVec 5
  /-- `ACC` (rule R18). -/
  acc : Raw24
  /-- `N`, 8 bits (rule R19). -/
  n : BitVec 8
  /-- `REM`, 8 bits (rule R20). -/
  rem : BitVec 8
  /-- `SUM`, signed 32 bits (rule R21). -/
  sum : Word
  /-- `WCNT` (rule R22). -/
  wcnt : Nat
  /-- `DONE` (rule R23). -/
  done : Bool
  /-- `TIMEOUT` (rule R24). -/
  timeout : Bool
  /-- `REJECT` (rule R25). -/
  reject : Reject
  /-- `RESULT`, signed 32 bits (rule R26). -/
  result : Word
  /-- `RAW` (rule R27). -/
  raw : Raw24
  /-- The parameters of rule R7: configuration that no step writes (log 5). -/
  params : Config.Params
  /-- The model's own: the agents' turns still to come, the next one first (rules R10, R105; log 1). -/
  turns : List Turn
  /-- The model's own: how many steps found no turn listed (log 1). -/
  turnIx : Nat
  /-- The model's own: the levels the device answers next, the next one first (rule R11; log 3). -/
  line : List Level
  /-- The model's own: how many draws went beyond `line` (log 3). -/
  drawIx : Nat
  /-- The model's own: the words the host's reads returned, the newest first (rule R58's host-side variables; log 4). -/
  returned : List Word
deriving DecidableEq, Repr

/-- Right after reset (rules R13, R116). The model's own fields are empty and the parameters are the default ones:
DESIGN CHOICE (logs 1, 3, 4, 5). -/
def State.reset : State :=
  { sck := false
    phase := .idle
    bitcnt := 0
    acc := 0
    n := 0
    rem := 0
    sum := 0
    wcnt := 0
    done := false
    timeout := false
    reject := .none
    result := 0
    raw := 0
    params := Config.defaultParams
    turns := []
    turnIx := 0
    line := []
    drawIx := 0
    returned := [] }

/-- The reasons a meaning stops as a fault. The block itself has no trap (rule R106). -/
inductive Fault where
  /-- Raised by the meanings of the seven engine steps when PHASE is not the value that selects the step: then the step is
  not enabled (rules R57, R61). `step` never raises it. DEDUCED, safe (log 7). -/
  | stepNotEnabled
deriving DecidableEq, Repr

/-- The reasons a step is refused. -/
inductive Refusal where
  /-- Raised by an arm of `exec` whose instruction has no meaning yet. Safe. -/
  | notModelled (mnemonic : String)
  /-- Raised by `step` at a bus access not of the form of rule R35, which "A model refuses" (rules R35, R103). Safe (log 8). -/
  | unsupportedAccess (why : AccessError)
deriving DecidableEq, Repr

/-- What the next step is (rule R10). -/
inductive Selected where
  /-- An engine step or a bus access: the operation `exec` runs. -/
  | run (i : Instr)
  /-- A reset (rule R116). -/
  | reset
  /-- A bus access that rule R35 does not support. -/
  | unsupported (why : AccessError)
deriving DecidableEq, Repr

end Sys2Proof.Machine
end

