-- ==== Sys2Proof/Machine/Flags.lean ====
section
/-! DEFINITION. The STATUS word and its fields (30_encoding.md rule R54). -/

namespace Sys2Proof.Machine

/-- The two-bit code of REJECT (rule R25). -/
def Reject.code : Reject → BitVec 2
  | .none => 0b00
  | .illegal => 0b01
  | .busy => 0b10

/-- `BUSY = (PHASE ≠ IDLE)` (rule R28). -/
def State.busy (s : State) : Bool := s.phase != .idle

/-- READY for a level `d` of the data line: `1 − d` (rule R54). -/
def ready (d : Level) : Bool := !d

/-- The STATUS word for a level `d` of the data line (rules R54, R80):
bit 8 SCK, bits 7:6 zero, bits 5:4 REJECT, bit 3 TIMEOUT, bit 2 DONE, bit 1 READY, bit 0 BUSY. -/
def State.statusWord (d : Level) (s : State) : Word :=
  zext 32 (BitVec.ofBool s.sck ++ 0b00#2 ++ s.reject.code ++ BitVec.ofBool s.timeout ++ BitVec.ofBool s.done
    ++ BitVec.ofBool (ready d) ++ BitVec.ofBool s.busy)

end Sys2Proof.Machine
end

