-- ==== Sys2Proof/Machine/Operands.lean ====
section
/-! DEFINITION. Operand forms and the arithmetic of 42_arithmetic.md. -/

namespace Sys2Proof.Machine

/-- READ_RAW uses n = 1, whatever bits 15:8 of its word (rules R49, R83). -/
def readRawCount : BitVec 8 := 1

/-- `ACC[22:0] ++ d` (rule R69): MSB first, the sampled bit enters at bit 0. -/
def shiftIn (acc : Raw24) (d : Level) : Raw24 := acc.extractLsb' 0 23 ++ BitVec.ofBool d

/-- `decode24` (rule R90). -/
def decode24 (raw : Raw24) : Int :=
  if raw.getLsbD Config.signBit then (raw.toNat : Int) - 2 ^ 24 else raw.toNat

/-- `floor_div(a, n)` for n ≥ 1 (rule R93); for n = 0 a free value (log 6). -/
def floorDiv (a : Int) (n : BitVec 8) : Int :=
  if n = 0 then Config.freeQuotient a else Int.fdiv a n.toNat

/-- `SUM + decode24(ACC)`, as an exact integer (rules R73, R92). -/
def nextSum (s : State) : Int := s.sum.toInt + decode24 s.acc

end Sys2Proof.Machine
end

