-- ==== Sys2Proof/Machine/Ops.lean ====
section
/-! DEFINITION. The operations over the state that the meanings share: driving the clock and PHASE (rule R9), drawing the
data line (rules R11, R15), returning a word to the host, recording a refusal (rule R100), accepting a command (rule R79),
the ready timeout (rule R101) and reset (rule R116). -/

namespace Sys2Proof.Machine

/-- `SCK <- b` (rule R9). -/
def State.setSck (b : Level) (s : State) : State := { s with sck := b }

/-- `PHASE <- p` (rule R9). -/
def State.setPhase (p : Phase) (s : State) : State := { s with phase := p }

/-- The level one `DOUT()` draws in this state: the next listed level, else a free one (rule R11; log 3). -/
def State.dout (s : State) : Level :=
  match s.line with
  | d :: _ => d
  | [] => Config.freeDout s.drawIx

/-- The state after one `DOUT()`: that level is used up. Nothing of the block changes (rule R15). -/
def State.afterDraw (s : State) : State :=
  match s.line with
  | _ :: rest => { s with line := rest }
  | [] => { s with drawIx := s.drawIx + 1 }

/-- A read returns `w` to the host (rule R47). -/
def State.returnWord (w : Word) (s : State) : State := { s with returned := w :: s.returned }

/-- `reject(code)`: a refused command writes REJECT and nothing else (rules R9, R100). -/
def State.recordReject (code : Reject) (s : State) : State := { s with reject := code }

/-- `accept(n)`: the common start of a transaction (rule R79). -/
def State.accept (n : BitVec 8) (s : State) : State :=
  { s with
    n := n
    rem := n
    sum := 0
    acc := 0
    bitcnt := 0
    wcnt := 0
    done := false
    timeout := false
    reject := .none
    phase := .wait }

/-- A legal command: refused as BUSY while a transaction is in flight (rule R87), else accepted (rules R83 to R85). -/
def State.startTransaction (n : BitVec 8) (s : State) : State :=
  if s.phase ≠ .idle then s.recordReject .busy else s.accept n

/-- The ready timeout ends the transaction without a result (rules R66, R101). -/
def State.timeOut (s : State) : State := { s with wcnt := 0, timeout := true, phase := .idle }

/-- Reset: every element of rule R13 at its reset value (rules R116, R117). The platform's parameters, the agents' turns
to come, the device's levels and what the host has read are not the block's, and stay (log 12). -/
def State.applyReset (s : State) : State :=
  { State.reset with
    params := s.params
    turns := s.turns
    turnIx := s.turnIx
    line := s.line
    drawIx := s.drawIx
    returned := s.returned }

/-- An engine step is enabled in the phase that selects it and in no other (rules R57, R61; log 7). -/
def inPhase (p : Phase) (s next : State) : Host.Outcome State Fault Refusal :=
  if s.phase = p then .next next else .fault .stepNotEnabled

end Sys2Proof.Machine
end

