-- ==== Sys2Proof/Machine/Engine.lean ====
section
/-! DEFINITION. The engine steps (40_protocol_engine.md rules R66 to R73). -/

namespace Sys2Proof.Machine

/-- What POLL does with the level `d` it drew (rule R66). -/
def pollWith (d : Level) (s : State) : State :=
  if d = false then { s with wcnt := 0, phase := .rise }
  else
    match s.params.readyTimeout with
    | none => s
    | some k => if s.wcnt + 1 ≥ k then s.timeOut else { s with wcnt := s.wcnt + 1 }

/-- What SAMPLE does with the level `d` it drew (rule R69). -/
def sampleWith (d : Level) (s : State) : State := { s with acc := shiftIn s.acc d, phase := .fall }

/-- What FALL does (rule R70). -/
def fallNext (s : State) : State :=
  { s with
    sck := false
    bitcnt := s.bitcnt + 1
    phase := if s.bitcnt + 1 = BitVec.ofNat 5 Config.dataBits then .xrise else .rise }

/-- The part of FINISH that every read does (rule R73). -/
def finishRead (s : State) : State :=
  { s with
    raw := s.acc
    sum := trunc32 (nextSum s)
    rem := s.rem - 1
    acc := 0
    bitcnt := 0 }

/-- What FINISH does (rule R73): the last read completes the transaction, another one starts the next read's wait. -/
def finishNext (s : State) : State :=
  if s.rem - 1 = 0 then
    { finishRead s with result := trunc32 (floorDiv (nextSum s) s.n), done := true, phase := .idle }
  else
    { finishRead s with phase := .wait }

/-- POLL (rule R66): wait for ready. -/
def execPoll (s : State) : Host.Outcome State Fault Refusal := inPhase .wait s (pollWith s.dout s.afterDraw)

/-- RISE (rule R68): raise the clock for a data pulse. -/
def execRise (s : State) : Host.Outcome State Fault Refusal := inPhase .rise s ((s.setSck true).setPhase .sample)

/-- SAMPLE (rule R69): sample one data bit, MSB first. -/
def execSample (s : State) : Host.Outcome State Fault Refusal := inPhase .sample s (sampleWith s.dout s.afterDraw)

/-- FALL (rule R70): lower the clock after a data pulse. -/
def execFall (s : State) : Host.Outcome State Fault Refusal := inPhase .fall s (fallNext s)

/-- XRISE (rule R71): raise the clock for the extra pulse; the data line is not sampled (rule R63). -/
def execXrise (s : State) : Host.Outcome State Fault Refusal := inPhase .xrise s ((s.setSck true).setPhase .xfall)

/-- XFALL (rule R72): lower the clock after the extra pulse. -/
def execXfall (s : State) : Host.Outcome State Fault Refusal := inPhase .xfall s ((s.setSck false).setPhase .finish)

/-- FINISH (rule R73): decode the sample, and complete or continue the transaction. -/
def execFinish (s : State) : Host.Outcome State Fault Refusal := inPhase .finish s (finishNext s)

end Sys2Proof.Machine
end

