-- ==== Sys2Proof/Machine/HostRead.lean ====
section
/-! DEFINITION. The host's reads (41_host_commands.md rules R80 to R82, R89). None changes the block's state. -/

namespace Sys2Proof.Machine

/-- IS_READY (rule R80): read STATUS, with one draw of the data line. -/
def execIsReady (s : State) : Host.Outcome State Fault Refusal :=
  .next (s.afterDraw.returnWord (s.statusWord s.dout))

/-- RD_RESULT (rules R55, R81). RESULT is held as its 32-bit two's-complement word, `trunc_32(RESULT)`. -/
def execRdResult (s : State) : Host.Outcome State Fault Refusal := .next (s.returnWord s.result)

/-- RD_RAW (rules R56, R82). -/
def execRdRaw (s : State) : Host.Outcome State Fault Refusal := .next (s.returnWord (zext 32 s.raw))

/-- RD_CMD (rules R38, R89). -/
def execRdCmd (s : State) : Host.Outcome State Fault Refusal := .next (s.returnWord 0x00000000)

end Sys2Proof.Machine
end

