-- ==== Sys2Proof/Machine/HostWrite.lean ====
section
/-! DEFINITION. The host's writes: commands (41_host_commands.md rules R83 to R87) and WR_RO (rule R89). -/

namespace Sys2Proof.Machine

/-- READ_RAW (rules R83, R87). -/
def execReadRaw (s : State) : Host.Outcome State Fault Refusal := .next (s.startTransaction readRawCount)

/-- READ_AVG (rules R84, R85, R87): n = 0 is refused as ILLEGAL before the busy check. -/
def execReadAvg (n : BitVec 8) (s : State) : Host.Outcome State Fault Refusal :=
  .next (if n = 0 then s.recordReject .illegal else s.startTransaction n)

/-- CMD_AVG_ZERO (rule R86). -/
def execCmdAvgZero (s : State) : Host.Outcome State Fault Refusal := .next (s.recordReject .illegal)

/-- CMD_ILLEGAL_00 (rule R86). -/
def execCmdIllegal00 (s : State) : Host.Outcome State Fault Refusal := .next (s.recordReject .illegal)

/-- CMD_ILLEGAL_11 (rule R86). -/
def execCmdIllegal11 (s : State) : Host.Outcome State Fault Refusal := .next (s.recordReject .illegal)

/-- WR_RO (rules R38, R89): no effect, whatever the register and the data. -/
def execWrRo (_reg : RoReg) (_data : Word) (s : State) : Host.Outcome State Fault Refusal := .next s

end Sys2Proof.Machine
end

