-- ==== Sys2Proof/Machine/Dispatch.lean ====
section
/-! DEFINITION. One arm per operation of the opcode table (rule R57). -/

namespace Sys2Proof.Machine

def exec (i : Instr) (s : State) : Host.Outcome State Fault Refusal :=
  match i with
  | .isReady => Sys2Proof.Machine.execIsReady s
  | .rdResult => Sys2Proof.Machine.execRdResult s
  | .rdRaw => Sys2Proof.Machine.execRdRaw s
  | .rdCmd => Sys2Proof.Machine.execRdCmd s
  | .readRaw => Sys2Proof.Machine.execReadRaw s
  | .readAvg n => Sys2Proof.Machine.execReadAvg n s
  | .cmdAvgZero => Sys2Proof.Machine.execCmdAvgZero s
  | .cmdIllegal00 => Sys2Proof.Machine.execCmdIllegal00 s
  | .cmdIllegal11 => Sys2Proof.Machine.execCmdIllegal11 s
  | .wrRo reg data => Sys2Proof.Machine.execWrRo reg data s
  | .poll => Sys2Proof.Machine.execPoll s
  | .rise => Sys2Proof.Machine.execRise s
  | .sample => Sys2Proof.Machine.execSample s
  | .fall => Sys2Proof.Machine.execFall s
  | .xrise => Sys2Proof.Machine.execXrise s
  | .xfall => Sys2Proof.Machine.execXfall s
  | .finish => Sys2Proof.Machine.execFinish s

end Sys2Proof.Machine
end

