-- ==== Sys2Proof/Machine/Fetch.lean ====
section
/-! DEFINITION. Which step comes next (00_scope.md rule R10): the block fetches no instruction (rule R45); a host access
arrives from the bus, an engine step is selected by PHASE. -/

namespace Sys2Proof.Machine

/-- A bus access: the operation it selects, or that it is unsupported (rules R35, R57). -/
def selectAccess (base : Nat) (a : Access) : Selected :=
  match decodeAccess base a with
  | .ok i => .run i
  | .error e => .unsupported e

/-- What comes from outside the block: an access, or a reset. -/
def selectOutside (base : Nat) : Option Access → Selected
  | some a => selectAccess base a
  | none => .reset

/-- What the next step is when `turns` stand listed, and the state with the turns that it uses up taken away. While IDLE the
engine has no step, so its turns are passed over (rules R57, R61; log 2). With no turn listed the engine moves if it has a
step, else something comes from outside; either way a free list of turns comes next: DESIGN CHOICE (log 1). -/
def State.schedule (s : State) : List Turn → Selected × State
  | [] =>
    ((match decodePhase s.phase with
      | some i => .run i
      | none => selectOutside s.params.base (Config.freeOutside s.turnIx)),
      { s with turns := Config.freeTurns s.turnIx, turnIx := s.turnIx + 1 })
  | .engine :: rest =>
    match decodePhase s.phase with
    | some i => (.run i, { s with turns := rest })
    | none => s.schedule rest
  | .host a :: rest => (selectAccess s.params.base a, { s with turns := rest })
  | .reset :: rest => (.reset, { s with turns := rest })

/-- What the next step is. -/
def State.select (s : State) : Selected := (s.schedule s.turns).1

/-- The turns that the next step uses up are taken away. -/
def State.advance (s : State) : State := (s.schedule s.turns).2

/-- The access `a` comes before every turn already listed. -/
def State.offer (a : Access) (s : State) : State := { s with turns := .host a :: s.turns }

end Sys2Proof.Machine
end

