-- ==== Sys2Proof/Machine/Step.lean ====
section
/-! DEFINITION. One step (00_scope.md rule R10): an engine step, a host access or a reset, each atomic. -/

namespace Sys2Proof.Machine

/-- One step: exactly one of rule R10's three, or the refusal of an unsupported access (rule R103). -/
def step (s : State) : Host.Outcome State Fault Refusal :=
  match s.select with
  | .run i => exec i s.advance
  | .reset => .next s.advance.applyReset
  | .unsupported why => .refused (.unsupportedAccess why)

/-- `s` with the access that carries a word of the opcode table as its next turn (logs 9, 10). -/
def State.withFetchWord (s : State) (nbits w : Nat) : State := s.offer (tableAccess s.params.base nbits w)

end Sys2Proof.Machine
end

