-- ==== Sys2Proof/Safety.lean ====
section
/-! DEFINITION. The terms claims are stated in: the invariant of rule R29, runs, the states a run starts from, which steps
stop, what the device sees on the two lines, and what the data bits of a read stand for. -/

namespace Sys2Proof.Safety

open Sys2Proof.Machine

/-- Rule R29 items 1 to 9, with what makes them inductive: REM never exceeds N, SUM stays within the samples added so far
(rules R21, R92), and WCNT stays below the timeout (rule R13). -/
structure Inv (s : State) : Prop where
  /-- R29 item 1. -/
  sck_high_iff : s.sck = true ↔ s.phase = .sample ∨ s.phase = .fall ∨ s.phase = .xfall
  /-- R29 item 2. -/
  cleared : s.phase = .idle ∨ s.phase = .wait → s.bitcnt = 0 ∧ s.acc = 0
  /-- R29 item 3. -/
  before_sample : s.phase = .rise ∨ s.phase = .sample → s.bitcnt.toNat ≤ 23 ∧ s.acc.toNat < 2 ^ s.bitcnt.toNat
  /-- R29 item 4. -/
  after_sample : s.phase = .fall → s.bitcnt.toNat ≤ 23 ∧ s.acc.toNat < 2 ^ (s.bitcnt.toNat + 1)
  /-- R29 item 5. -/
  transferred : s.phase = .xrise ∨ s.phase = .xfall ∨ s.phase = .finish → s.bitcnt.toNat = 24
  /-- R29 item 6. -/
  in_flight : s.phase ≠ .idle → 1 ≤ s.rem.toNat ∧ s.rem.toNat ≤ s.n.toNat ∧ s.n.toNat ≤ 255 ∧
    s.done = false ∧ s.timeout = false
  /-- R29 item 7. -/
  done_excludes_timeout : ¬ (s.done = true ∧ s.timeout = true)
  /-- R29 item 8. -/
  result_range : -2 ^ 23 ≤ s.result.toInt ∧ s.result.toInt ≤ 2 ^ 23 - 1
  /-- R29 item 9. -/
  reject_code : s.reject.code ≠ 0b11
  /-- REM counts down from N (rules R19, R20). -/
  rem_le_n : s.rem.toNat ≤ s.n.toNat
  /-- SUM holds N − REM samples (rules R21, R92). -/
  sum_range : ((s.n.toNat : Int) - s.rem.toNat) * (-2 ^ 23) ≤ s.sum.toInt ∧
    s.sum.toInt ≤ ((s.n.toNat : Int) - s.rem.toNat) * (2 ^ 23 - 1)
  /-- Without READY_TIMEOUT no timeout ever happens (rule R24). -/
  no_timeout : s.params.readyTimeout = none → s.timeout = false
  /-- "below k when `READY_TIMEOUT = some k`" (rule R13). -/
  wait_count : ∀ k, s.params.readyTimeout = some k → s.wcnt < k

/-- A state a run may start from: the block reset, with any well-formed parameters, any turns to come, any device, and
any words already at the host. -/
def Start (s : State) : Prop :=
  s.params.wellFormed = true ∧
  s = { State.reset with
    params := s.params
    turns := s.turns
    turnIx := s.turnIx
    line := s.line
    drawIx := s.drawIx
    returned := s.returned }

/-- The states that steps lead to from a start. -/
inductive Reachable : State → Prop where
  | start {s : State} (h : Start s) : Reachable s
  | step {s t : State} (hs : Reachable s) (h : Machine.step s = .next t) : Reachable t

/-- `k` steps of the machine behind the host's interface, stopping at the first fault or refusal. -/
def run (k : Nat) (s : State) : Host.Outcome State Fault Refusal := Host.Core.run core k s

/-- The state a step leads to, where it leads to one. -/
def nextState? : Host.Outcome State Fault Refusal → Option State
  | .next s => some s
  | .fault _ => none
  | .refused _ => none

/-- Whether a step from `s` to `t` drew the data line: a listed level or a free one was used up (rule R15). -/
def drew (s t : State) : Bool := s.line.length + t.drawIx != t.line.length + s.drawIx

/-- The level the `j`-th draw from now on answers, listed or free (rule R11). -/
def levelAt (s : State) (j : Nat) : Level :=
  match s.line[j]? with
  | some d => d
  | none => Config.freeDout (s.drawIx + (j - s.line.length))

/-- Whether the next step is the engine's (rule R10). -/
def engineMoves (s : State) : Bool :=
  match s.select with
  | .run i => !i.isHost
  | .reset => false
  | .unsupported _ => false

/-- How many of `k` steps are the engine's. -/
def engineSteps : Nat → State → Nat
  | 0, _ => 0
  | k + 1, s =>
    match step s with
    | .next t => (if engineMoves s then 1 else 0) + engineSteps k t
    | .fault _ => 0
    | .refused _ => 0

/-- What the device sees of `k` steps (rule R75): after each step the level of SCK, and whether the step sampled the data
line. -/
def pinTrace : Nat → State → List (Level × Bool)
  | 0, _ => []
  | k + 1, s =>
    match step s with
    | .next t => (t.sck, drew s t) :: pinTrace k t
    | .fault _ => []
    | .refused _ => []

/-- The pins during one read whose wait sees `p` levels HIGH and then LOW (rule R75): the wait's samples with SCK LOW, 24
data pulses each sampled once while HIGH, one extra pulse not sampled, and the decode. -/
def readPins (p : Nat) : List (Level × Bool) :=
  List.replicate (p + 1) (false, true)
    ++ (List.replicate Config.dataBits [(true, false), (true, true), (false, false)]).flatten
    ++ (List.replicate Config.extraPulses [(true, false), (false, false)]).flatten
    ++ [(false, false)]

/-- Rising edges along a list of levels that starts after level `before`. -/
def risingEdges (before : Level) : List Level → Nat
  | [] => 0
  | l :: ls => (if !before && l then 1 else 0) + risingEdges l ls

/-- Falling edges along a list of levels that starts after level `before`. -/
def fallingEdges (before : Level) : List Level → Nat
  | [] => 0
  | l :: ls => (if before && !l then 1 else 0) + fallingEdges l ls

/-- `Σ_j d_j · 2^(len − 1 − j)`: bits read most significant first (rule R37). -/
def msbFirst : List Level → Nat
  | [] => 0
  | d :: ds => d.toNat * 2 ^ ds.length + msbFirst ds

/-- The raw shift result of 24 sampled bits (rules R12, R37). -/
def rawOf (bits : List Level) : Raw24 := BitVec.ofNat 24 (msbFirst bits)

/-- One read as the device plays it: how many levels HIGH the wait sees before LOW, and the 24 data bits. -/
structure DeviceRead where
  waits : Nat
  bits : List Level
deriving DecidableEq, Repr

/-- The wait of the read ends before the ready timeout fires, where there is one, in a wait that has already seen `seen` levels
HIGH (rule R66). -/
def DeviceRead.inTime (r : DeviceRead) (p : Config.Params) (seen : Nat) : Prop :=
  ∀ k, p.readyTimeout = some k → seen + r.waits < k

/-- The levels one read draws, in order (rules R60, R74). -/
def DeviceRead.levels (r : DeviceRead) : List Level := List.replicate r.waits true ++ false :: r.bits

/-- The engine steps one read takes: `p + 75` with `p = waits + 1` POLL steps (rule R74). -/
def DeviceRead.steps (r : DeviceRead) : Nat := (r.waits + 1) + 75

/-- The sample one read yields (rules R12, R90). -/
def DeviceRead.sample (r : DeviceRead) : Int := decode24 (rawOf r.bits)

/-- A legal command word: READ_RAW, or READ_AVG of at least one sample (rules R50, R52). -/
def legalCommand (w : Word) : Prop := opField w = 0b01#2 ∨ (opField w = 0b10#2 ∧ nField w ≠ 0)

/-- The number of reads that a legal command word asks for (rule R49). -/
def commandCount (w : Word) : BitVec 8 := if opField w = 0b01#2 then 1 else nField w

/-- What a write of word `w` to CMD does to the block, as rule R85 resolves it. -/
def resolveCommand (w : Word) (s : State) : State :=
  let op := opField w
  let nf := nField w
  if op = 0b00#2 ∨ op = 0b11#2 ∨ (op = 0b10#2 ∧ nf.toNat = 0) then s.recordReject .illegal
  else if s.phase ≠ .idle then s.recordReject .busy
  else if op = 0b01#2 then s.accept 1
  else s.accept nf

/-- The instruction starts a transaction in this state (rules R79, R83, R84). -/
def accepts (i : Instr) (s : State) : Prop :=
  s.phase = .idle ∧ (i = .readRaw ∨ ∃ n, n ≠ 0 ∧ i = .readAvg n)

/-- The block's thirteen elements of rule R13 are the same in `s` and `t`. -/
def SameBlock (s t : State) : Prop :=
  t.sck = s.sck ∧ t.phase = s.phase ∧ t.bitcnt = s.bitcnt ∧ t.acc = s.acc ∧ t.n = s.n ∧ t.rem = s.rem ∧
  t.sum = s.sum ∧ t.wcnt = s.wcnt ∧ t.done = s.done ∧ t.timeout = s.timeout ∧ t.reject = s.reject ∧
  t.result = s.result ∧ t.raw = s.raw

/-- What an in-flight transaction works with is the same in `s` and `t` (rule R87): all of rule R13 but REJECT. -/
def SameTransaction (s t : State) : Prop := SameBlock { s with reject := t.reject } t

/-- The outside world is the same in `s` and `t`: parameters, turns to come, device, and what the host has read. -/
def SameOutside (s t : State) : Prop :=
  t.params = s.params ∧ t.turns = s.turns ∧ t.turnIx = s.turnIx ∧ t.line = s.line ∧ t.drawIx = s.drawIx ∧ t.returned = s.returned

end Sys2Proof.Safety
end

