-- ==== Sys2Proof/Certificates/Slice0/Obligations.lean ====
section
/-! DEFINITION. The statements for the provers, each from the spec's numbered rules. -/

open Sys2Proof Sys2Proof.Machine Sys2Proof.Safety

/-! ## Encoding -/

/-- Transactions written out from 30_encoding.md rules R47, R50, R57 and R58 decode to their operations (window at
0x40000000). -/
def Obligations.WrittenTransactionsDecode : Prop :=
  decodeAccess 0x40000000 ⟨.read, 0x40000004, 4, 0⟩ = .ok .isReady ∧
  decodeAccess 0x40000000 ⟨.read, 0x4000000C, 4, 0⟩ = .ok .rdRaw ∧
  decodeAccess 0x40000000 ⟨.write, 0x40000000, 4, 0b00000000000000000000000000000001⟩ = .ok .readRaw ∧
  decodeAccess 0x40000000 ⟨.write, 0x40000000, 4, 0b00000000000000000000101000000010⟩ = .ok (.readAvg 10) ∧
  decodeAccess 0x40000000 ⟨.write, 0x40000000, 4, 0b00000000000000000000000000000010⟩ = .ok .cmdAvgZero ∧
  decodeAccess 0x40000000 ⟨.write, 0x40000000, 4, 0b11111111111111111111111111111111⟩ = .ok .cmdIllegal11 ∧
  decodeAccess 0x40000000 ⟨.write, 0x40000008, 4, 0x00001234⟩ = .ok (.wrRo .result 0x00001234) ∧
  decodePhase .wait = some .poll

/-- Every well-formed operation, with every operand, is what its encoding decodes to, wherever the window stands
(rules R57, R58). -/
def Obligations.DecodeOfEncodeIsIdentity : Prop :=
  ∀ (base : Nat) (i : Instr), i.wellFormed = true → decode base (encode base i) = .ok i

/-- The other direction: what a selector decodes to is well formed and encodes back to the same PHASE value, or to an access
of the same direction, address and width whose data word agrees on every bit that is not ignored (rules R49, R51, R57). -/
def Obligations.EncodeOfDecodeKeepsSelector : Prop :=
  ∀ (base : Nat) (i : Instr),
    (∀ p, decode base (.phase p) = .ok i → i.wellFormed = true ∧ i.isHost = false ∧ encode base i = .phase p) ∧
    (∀ a, decode base (.access a) = .ok i → i.wellFormed = true ∧ i.isHost = true ∧
      ∃ b, encode base i = .access b ∧ b.dir = a.dir ∧ b.addr = a.addr ∧ b.size = a.size ∧
        (a.dir = .write → a.addr = base → opField b.data = opField a.data ∧
          (opField a.data = 0b10#2 → nField b.data = nField a.data)) ∧
        (a.dir = .write → a.addr ≠ base → b.data = a.data))

/-- Rule R51: a command word acts exactly as the same word with bits 7:2 and 31:16 zero. -/
def Obligations.ReservedCommandBitsIgnored : Prop :=
  ∀ (s : State) (w : Word) (rest : List Turn),
    step { s with turns := .host (writeAccess s.params.base .cmd w) :: rest } =
      step { s with turns := .host (writeAccess s.params.base .cmd (w &&& 0x0000FF03)) :: rest }

/-- The command rows of the opcode table, by match and mask; the more specific CMD_AVG_ZERO row wins (rule R57). -/
def Obligations.CommandRowsSelectTheirWords : Prop :=
  ∀ w : Word,
    (decodeCommand w = .readRaw ↔ w &&& 0x00000003 = 0x00000001) ∧
    (decodeCommand w = .cmdIllegal00 ↔ w &&& 0x00000003 = 0x00000000) ∧
    (decodeCommand w = .cmdIllegal11 ↔ w &&& 0x00000003 = 0x00000003) ∧
    (decodeCommand w = .cmdAvgZero ↔ w &&& 0x0000FF03 = 0x00000002) ∧
    (∀ n, decodeCommand w = .readAvg n ↔
      w &&& 0x00000003 = 0x00000002 ∧ n.toNat = w.toNat / 2 ^ 8 % 2 ^ 8 ∧ n ≠ 0)

/-- Rule R52: the illegal command words are exactly these; writing one starts no transaction and is recorded as ILLEGAL; and
every command word has a defined result. -/
def Obligations.IllegalCommandsExactly : Prop :=
  ∀ (s : State) (w : Word) (rest : List Turn), s.turns = .host (writeAccess s.params.base .cmd w) :: rest →
    ((opField w = 0b00#2 ∨ opField w = 0b11#2 ∨ (opField w = 0b10#2 ∧ nField w = 0)) →
      step s = .next { s with turns := rest, reject := .illegal }) ∧
    (¬ (opField w = 0b00#2 ∨ opField w = 0b11#2 ∨ (opField w = 0b10#2 ∧ nField w = 0)) →
      ∃ t, step s = .next t ∧ t.reject ≠ .illegal)

/-- Rules R35 and R103: an aligned 32-bit access to one of the four offsets runs as the operation it decodes to, and completes;
any other access to the window is refused, with no next state. That an access outside the window is refused too is the
model's choice (log 8). -/
def Obligations.OnlyAlignedWordAccessesRun : Prop :=
  ∀ (s : State) (a : Access) (rest : List Turn), s.turns = .host a :: rest →
    ((a.size = 4 ∧ ∃ off, (off = 0x00 ∨ off = 0x04 ∨ off = 0x08 ∨ off = 0x0C) ∧ a.addr = s.params.base + off) →
      ∃ i t, decode s.params.base (.access a) = .ok i ∧ i.isHost = true ∧ step s = exec i { s with turns := rest } ∧
        step s = .next t) ∧
    (¬ (a.size = 4 ∧ ∃ off, (off = 0x00 ∨ off = 0x04 ∨ off = 0x08 ∨ off = 0x0C) ∧ a.addr = s.params.base + off) →
      ∃ why, step s = .refused (.unsupportedAccess why))

/-! ## The step -/

/-- A step is exactly one of rule R10's three: the operation that a listed host access or, on the engine's listed turn, PHASE
decodes to, run after its turn is used up; or a listed reset. How the order of the agents stands in the state is the model's
choice: the engine's turn while IDLE is passed over (log 2); with no turn listed the engine moves while it has a step, else
something comes from outside, and a free list of turns comes next (log 1). -/
def Obligations.StepRunsSelectedOperation : Prop :=
  ∀ (s : State) (rest : List Turn) (i : Instr),
    (∀ a, s.turns = .host a :: rest → decode s.params.base (.access a) = .ok i →
      step s = exec i { s with turns := rest }) ∧
    (s.turns = .engine :: rest → decode s.params.base (.phase s.phase) = .ok i →
      step s = exec i { s with turns := rest }) ∧
    (s.turns = .reset :: rest → step s = .next { s with turns := rest }.applyReset) ∧
    (s.turns = .engine :: rest → s.phase = .idle → step s = step { s with turns := rest }) ∧
    (s.turns = [] → decode s.params.base (.phase s.phase) = .ok i →
      step s = exec i { s with turns := Config.freeTurns s.turnIx, turnIx := s.turnIx + 1 }) ∧
    (s.turns = [] → s.phase = .idle →
      step s = step
        { s with
          turns := .outside (Config.freeOutside s.turnIx) :: Config.freeTurns s.turnIx
          turnIx := s.turnIx + 1 })

/-- A word of the opcode table, laid before the machine, is run as what the decoder reads from it (logs 9, 10). -/
def Obligations.FetchWordRunsDecodedWord : Prop :=
  ∀ (s : State) (nbits w : Nat) (i : Instr), decodeTableWord nbits w = some i →
    step (s.withFetchWord nbits w) = exec i s

/-- A meaning faults exactly where an engine step is offered out of the phase that selects it (the model's choice, log 7), so
no step faults: PHASE names the engine's only step (rule R61), and the block has no trap (rule R106). -/
def Obligations.NoStepFaults : Prop :=
  (∀ (i : Instr) (s : State) (f : Fault),
    exec i s = .fault f ↔ f = .stepNotEnabled ∧ i.isHost = false ∧ decodePhase s.phase ≠ some i) ∧
  (∀ (i : Instr) (s : State) (r : Refusal), exec i s ≠ .refused r) ∧
  (∀ (s : State) (f : Fault), step s ≠ .fault f)

/-- Rule R61: the engine has no step while IDLE; otherwise PHASE names its one enabled step; and the step's effect on the
block is a function of the block, its parameters and, for POLL and SAMPLE alone, the level of one draw. -/
def Obligations.EngineStepIsFunctionOfStateAndDraw : Prop :=
  (∀ i : Instr, i.isHost = false → ∀ s : State, s.phase = .idle → ¬ ∃ t, exec i s = .next t) ∧
  (∀ s : State, s.phase ≠ .idle → ∃ i, i.isHost = false ∧ ∀ j, j.isHost = false → ((∃ t, exec j s = .next t) ↔ j = i)) ∧
  (∀ (i : Instr) (s : State), i.isHost = false → ((∃ t, exec i s = .next t) ↔ decodePhase s.phase = some i)) ∧
  (∀ (i : Instr) (s s' t : State), i.isHost = false → SameBlock s s' → s'.params = s.params →
    (i = .poll ∨ i = .sample → s'.dout = s.dout) → exec i s = .next t → ∃ t', exec i s' = .next t' ∧ SameBlock t t')

/-- A draw answers the device's next level and uses it up; past the listed levels it is the free value (rule R11; the two
ways are the model's own, log 3). -/
def Obligations.DrawUsesOneLevel : Prop :=
  ∀ (s : State),
    (∀ d rest, s.line = d :: rest → s.dout = d ∧ s.afterDraw = { s with line := rest }) ∧
    (s.line = [] → s.dout = Config.freeDout s.drawIx ∧ s.afterDraw = { s with drawIx := s.drawIx + 1 })

/-! ## Engine steps -/

/-- Rule R66: POLL, for every level drawn and every READY_TIMEOUT. -/
def Obligations.PollStep : Prop :=
  ∀ s : State, s.phase = .wait →
    (s.dout = false → exec .poll s = .next { s.afterDraw with wcnt := 0, phase := .rise }) ∧
    (s.dout = true → s.params.readyTimeout = none → exec .poll s = .next s.afterDraw) ∧
    (∀ k, s.dout = true → s.params.readyTimeout = some k → s.wcnt + 1 ≥ k →
      exec .poll s = .next { s.afterDraw with wcnt := 0, timeout := true, phase := .idle } ∧
      ∀ d, (({ s.afterDraw with wcnt := 0, timeout := true, phase := .idle } : State).statusWord d).getLsbD 3 = true ∧
        (({ s.afterDraw with wcnt := 0, timeout := true, phase := .idle } : State).statusWord d).getLsbD 0 = false) ∧
    (∀ k, s.dout = true → s.params.readyTimeout = some k → ¬ s.wcnt + 1 ≥ k →
      exec .poll s = .next { s.afterDraw with wcnt := s.wcnt + 1 })

/-- Rule R68: RISE, in every state that selects it; STATUS.SCK becomes 1; and the ready POLL before a read's first RISE
leaves SCK as it was. -/
def Obligations.RiseStep : Prop :=
  ∀ s : State,
    (s.phase = .rise → exec .rise s = .next { s with sck := true, phase := .sample } ∧
      ∀ d, (({ s with sck := true, phase := .sample } : State).statusWord d).getLsbD 8 = true) ∧
    (∀ t, exec .poll s = .next t → t.phase = .rise → t.sck = s.sck ∧ decodePhase t.phase = some .rise)

/-- Rule R69: SAMPLE shifts the drawn level in at bit 0; where the invariant holds no bit is lost. -/
def Obligations.SampleStep : Prop :=
  ∀ s : State, s.phase = .sample →
    exec .sample s = .next { s.afterDraw with acc := s.acc.extractLsb' 0 23 ++ BitVec.ofBool s.dout, phase := .fall } ∧
    (s.acc.extractLsb' 0 23 ++ BitVec.ofBool s.dout).toNat = (2 * s.acc.toNat + s.dout.toNat) % 2 ^ 24 ∧
    (Inv s → s.acc.getLsbD 23 = false ∧
      (s.acc.extractLsb' 0 23 ++ BitVec.ofBool s.dout).toNat = 2 * s.acc.toNat + s.dout.toNat)

/-- Rule R70: FALL lowers the clock and counts the pulse; the 24th leads to the extra pulse; STATUS.SCK becomes 0; and where
the invariant holds BITCNT never exceeds 24. -/
def Obligations.FallStep : Prop :=
  ∀ s : State, s.phase = .fall →
    (s.bitcnt + 1 = 24 →
      exec .fall s = .next { s with sck := false, bitcnt := s.bitcnt + 1, phase := .xrise }) ∧
    (s.bitcnt + 1 ≠ 24 →
      exec .fall s = .next { s with sck := false, bitcnt := s.bitcnt + 1, phase := .rise }) ∧
    (∀ t d, exec .fall s = .next t → (t.statusWord d).getLsbD 8 = false) ∧
    (∀ t, Inv s → exec .fall s = .next t → t.bitcnt.toNat = s.bitcnt.toNat + 1 ∧ t.bitcnt.toNat ≤ 24)

/-- Rule R71: XRISE raises the clock for the pulse after the 24 data pulses and changes nothing else; STATUS.SCK becomes 1. -/
def Obligations.XriseStep : Prop :=
  ∀ s : State, s.phase = .xrise →
    exec .xrise s = .next { s with sck := true, phase := .xfall } ∧
    (∀ d, (({ s with sck := true, phase := .xfall } : State).statusWord d).getLsbD 8 = true) ∧
    (Inv s → s.bitcnt.toNat = 24)

/-- Rule R63: the extra pulse does not sample the data line, and whatever the device drives during it has no effect. -/
def Obligations.ExtraPulseIgnoresDataLine : Prop :=
  ∀ (i : Instr) (s t : State), (i = .xrise ∨ i = .xfall) → exec i s = .next t →
    drew s t = false ∧ ∀ l k, exec i { s with line := l, drawIx := k } = .next { t with line := l, drawIx := k }

/-- Rule R72: XFALL lowers the clock; STATUS.SCK becomes 0; and from then on, while no next read has reached its first RISE,
no step raises it. -/
def Obligations.XfallStep : Prop :=
  ∀ s : State,
    (s.phase = .xfall → exec .xfall s = .next { s with sck := false, phase := .finish } ∧
      ∀ d, (({ s with sck := false, phase := .finish } : State).statusWord d).getLsbD 8 = false) ∧
    (∀ t, s.sck = false → (s.phase = .finish ∨ s.phase = .idle ∨ s.phase = .wait) → step s = .next t → t.sck = false)

/-- Rule R73: FINISH, where reads of the transaction remain and where it was the last one; STATUS.DONE becomes 1 and
STATUS.BUSY 0 on completion; and where the invariant holds the sum and the mean are exact, and for N = 1 RESULT is the decoded
sample. -/
def Obligations.FinishStep : Prop :=
  ∀ s : State, s.phase = .finish →
    (s.rem - 1 ≠ 0 → exec .finish s = .next
      { s with
        raw := s.acc
        sum := BitVec.ofInt 32 (s.sum.toInt + decode24 s.acc)
        rem := s.rem - 1
        acc := 0
        bitcnt := 0
        phase := .wait }) ∧
    (s.rem - 1 = 0 → exec .finish s = .next
      { s with
        raw := s.acc
        sum := BitVec.ofInt 32 (s.sum.toInt + decode24 s.acc)
        rem := s.rem - 1
        acc := 0
        bitcnt := 0
        result := BitVec.ofInt 32 (floorDiv (s.sum.toInt + decode24 s.acc) s.n)
        done := true
        phase := .idle }) ∧
    (∀ t d, s.rem - 1 = 0 → exec .finish s = .next t →
      (t.statusWord d).getLsbD 2 = true ∧ (t.statusWord d).getLsbD 0 = false) ∧
    (∀ t, Inv s → exec .finish s = .next t →
      t.sum.toInt = s.sum.toInt + decode24 s.acc ∧ t.rem.toNat = s.rem.toNat - 1 ∧
      (s.rem - 1 = 0 → t.result.toInt = floorDiv (s.sum.toInt + decode24 s.acc) s.n ∧
        (s.n = 1 → t.result.toInt = decode24 s.acc)))

/-! ## Host operations -/

/-- Rules R54 and R80: IS_READY returns the STATUS word, bit by bit, with READY the inverse of the one level it draws, and
changes nothing of the block; after reset every field but READY reads 0; and a write to STATUS changes none of them. -/
def Obligations.StatusReadReturnsFields : Prop :=
  ∀ s : State, ∃ w : Word,
    exec .isReady s = .next { s.afterDraw with returned := w :: s.returned } ∧
    (w.getLsbD 0 = true ↔ s.phase ≠ .idle) ∧
    (w.getLsbD 1 = true ↔ s.dout = false) ∧
    (w.getLsbD 2 = true ↔ s.done = true) ∧
    (w.getLsbD 3 = true ↔ s.timeout = true) ∧
    (s.reject = .none → w.getLsbD 5 = false ∧ w.getLsbD 4 = false) ∧
    (s.reject = .illegal → w.getLsbD 5 = false ∧ w.getLsbD 4 = true) ∧
    (s.reject = .busy → w.getLsbD 5 = true ∧ w.getLsbD 4 = false) ∧
    (w.getLsbD 8 = true ↔ s.sck = true) ∧
    (∀ j, j = 6 ∨ j = 7 ∨ 9 ≤ j → w.getLsbD j = false) ∧
    (Start s → ∀ j, j ≠ 1 → w.getLsbD j = false) ∧
    (∀ data, exec (.wrRo .status data) s = .next s)

/-- Rules R55 and R81: RD_RESULT returns the two's-complement word of RESULT and changes nothing of the block; where the
invariant holds, bits 31:23 of the word are all equal; after reset it returns 0. -/
def Obligations.ResultReadReturnsResult : Prop :=
  ∀ s : State,
    exec .rdResult s = .next { s with returned := BitVec.ofInt 32 s.result.toInt :: s.returned } ∧
    (Inv s → ∀ j, 23 ≤ j → j ≤ 31 →
      (BitVec.ofInt 32 s.result.toInt).getLsbD j = (BitVec.ofInt 32 s.result.toInt).getLsbD 31) ∧
    (Start s → BitVec.ofInt 32 s.result.toInt = 0x00000000)

/-- Rules R56 and R82: RD_RAW returns RAW in bits 23:0 and zeros above, and changes nothing of the block; after reset it
returns 0. -/
def Obligations.RawReadReturnsRaw : Prop :=
  ∀ s : State, ∃ w : Word,
    exec .rdRaw s = .next { s with returned := w :: s.returned } ∧
    w.toNat = s.raw.toNat ∧
    (∀ j, 24 ≤ j → w.getLsbD j = false) ∧
    (Start s → w = 0x00000000)

/-- Rules R38 and R89: RD_CMD returns 0 and has no effect; a write to a read-only register has none at all. -/
def Obligations.CmdReadAndReadOnlyWritesDoNothing : Prop :=
  ∀ (s : State) (reg : RoReg) (data : Word),
    exec .rdCmd s = .next { s with returned := 0x00000000 :: s.returned } ∧
    exec (.wrRo reg data) s = .next s

/-- Rule R79: READ_RAW and READ_AVG of n ≥ 1 samples in an idle block are accepted as `accept(1)` and `accept(n)`, which
leave RESULT, RAW and SCK (0 where the invariant holds) as they were; no other operation starts a transaction. -/
def Obligations.AcceptStartsTransaction : Prop :=
  ∀ s : State,
    (s.phase = .idle → exec .readRaw s = .next
      { s with
        n := 1
        rem := 1
        sum := 0
        acc := 0
        bitcnt := 0
        wcnt := 0
        done := false
        timeout := false
        reject := .none
        phase := .wait }) ∧
    (∀ n, s.phase = .idle → n ≠ 0 → exec (.readAvg n) s = .next
      { s with
        n := n
        rem := n
        sum := 0
        acc := 0
        bitcnt := 0
        wcnt := 0
        done := false
        timeout := false
        reject := .none
        phase := .wait }) ∧
    (Inv s → s.phase = .idle → s.sck = false) ∧
    (∀ i t, exec i s = .next t → s.phase = .idle → t.phase ≠ .idle → accepts i s)

/-- Rule R87: a legal command while a transaction is in flight writes REJECT = BUSY and nothing else. -/
def Obligations.LegalCommandRefusedWhileBusy : Prop :=
  ∀ (s : State) (i : Instr), s.phase ≠ .idle → (i = .readRaw ∨ ∃ n, n ≠ 0 ∧ i = .readAvg n) →
    exec i s = .next { s with reject := .busy } ∧
    ∀ d, (({ s with reject := .busy } : State).statusWord d).extractLsb' 4 2 = 0b10#2

/-- Rule R86: an illegal command writes REJECT = ILLEGAL and nothing else, idle or busy; so does the ill-formed READ_AVG of
zero samples (rule R84). -/
def Obligations.IllegalCommandRefused : Prop :=
  ∀ (s : State) (i : Instr), (i = .cmdIllegal00 ∨ i = .cmdIllegal11 ∨ i = .cmdAvgZero ∨ i = .readAvg 0) →
    exec i s = .next { s with reject := .illegal } ∧
    ∀ d, (({ s with reject := .illegal } : State).statusWord d).extractLsb' 4 2 = 0b01#2

/-- Rule R85: for every command word and every state, a write to CMD is resolved in the rule's order, ILLEGAL before BUSY,
and nothing else happens. -/
def Obligations.CommandWriteResolvesInOrder : Prop :=
  ∀ (s : State) (w : Word) (rest : List Turn), s.turns = .host (writeAccess s.params.base .cmd w) :: rest →
    step s = .next (resolveCommand w { s with turns := rest })

/-! ## What changes what -/

/-- Rule R14: SCK is 0 at reset and changes only in RISE, FALL, XRISE, XFALL and reset. -/
def Obligations.SckChangesOnlyInClockSteps : Prop :=
  State.reset.sck = false ∧
  ∀ s t : State, step s = .next t → t.sck ≠ s.sck →
    s.select = .run .rise ∨ s.select = .run .fall ∨ s.select = .run .xrise ∨ s.select = .run .xfall ∨ s.select = .reset

/-- Rule R15: the data line is read in exactly three places, POLL, SAMPLE and a STATUS read, whose READY bit is the
inverted level; nothing of the block holds it. -/
def Obligations.DataLineReadInThreePlaces : Prop :=
  ∀ s t : State, step s = .next t →
    (drew s t = true ↔ s.select = .run .poll ∨ s.select = .run .sample ∨ s.select = .run .isReady) ∧
    (s.select = .run .isReady → ∃ w, t.returned = w :: s.returned ∧ w.getLsbD 1 = !s.dout)

/-- Rule R23: FINISH sets DONE when REM reaches 0, an accepted command clears it, and besides reset nothing else changes it. -/
def Obligations.DoneLifeCycle : Prop :=
  State.reset.done = false ∧
  ∀ s t : State, step s = .next t →
    (s.select = .run .finish → s.rem = 1 → t.done = true) ∧
    (∀ i, s.select = .run i → accepts i s → t.done = false) ∧
    (t.done ≠ s.done → (s.select = .run .finish ∧ s.rem = 1) ∨ (∃ i, s.select = .run i ∧ accepts i s) ∨ s.select = .reset)

/-- Rule R24: TIMEOUT becomes 1 in the POLL that sees HIGH for the k-th time with READY_TIMEOUT = some k and only there, an
accepted command clears it, and besides reset nothing else changes it. -/
def Obligations.TimeoutLifeCycle : Prop :=
  State.reset.timeout = false ∧
  ∀ s t : State, step s = .next t →
    (∀ i, s.select = .run i → accepts i s → t.timeout = false) ∧
    (∀ k, s.select = .run .poll → s.dout = true → s.params.readyTimeout = some k → s.wcnt + 1 ≥ k → t.timeout = true) ∧
    (s.timeout = false → t.timeout = true →
      s.select = .run .poll ∧ s.dout = true ∧ t.phase = .idle ∧
      ∃ k, s.params.readyTimeout = some k ∧ s.wcnt + 1 ≥ k) ∧
    (s.timeout = true → t.timeout = false → (∃ i, s.select = .run i ∧ accepts i s) ∨ s.select = .reset)

/-- Rules R25 and R100: a refused command write sets REJECT to its code and an accepted one to NONE; besides reset nothing
else changes it; the code 0b11 is never written. -/
def Obligations.RejectLifeCycle : Prop :=
  State.reset.reject = .none ∧
  ∀ s t : State, step s = .next t →
    (∀ i, s.select = .run i → (i = .cmdIllegal00 ∨ i = .cmdIllegal11 ∨ i = .cmdAvgZero) → t.reject = .illegal) ∧
    (∀ i, s.select = .run i → (i = .readRaw ∨ ∃ n, n ≠ 0 ∧ i = .readAvg n) → s.phase ≠ .idle → t.reject = .busy) ∧
    (∀ i, s.select = .run i → accepts i s → t.reject = .none) ∧
    (t.reject ≠ s.reject →
      s.select = .reset ∨ ∃ a i, s.select = .run i ∧ decode s.params.base (.access a) = .ok i ∧ a.dir = .write ∧
        a.addr = s.params.base) ∧
    t.reject.code ≠ 0b11

/-- Rule R26: only the FINISH that completes a transaction writes RESULT, and in that same step DONE is set; a timeout and
every other step but reset leave it. -/
def Obligations.ResultWrittenOnlyByCompletion : Prop :=
  State.reset.result = 0 ∧
  ∀ s t : State, step s = .next t → t.result ≠ s.result →
    (s.select = .run .finish ∧ s.rem = 1 ∧ t.done = true ∧ t.phase = .idle ∧
      t.result = BitVec.ofInt 32 (floorDiv (s.sum.toInt + decode24 s.acc) s.n)) ∨
    s.select = .reset

/-- Rule R27: RAW is 0 at reset, every FINISH writes the read's raw shift result to it, and besides reset nothing else
changes it. -/
def Obligations.RawWrittenByEveryFinish : Prop :=
  State.reset.raw = 0 ∧
  ∀ s t : State, step s = .next t →
    (s.select = .run .finish → t.raw = s.acc) ∧
    (t.raw ≠ s.raw → s.select = .run .finish ∨ s.select = .reset)

/-- Rules R76 and R118: a transaction in flight ends only by the FINISH that brings REM to 0, by the ready timeout, or by a
reset. -/
def Obligations.TransactionEndsOnlyThreeWays : Prop :=
  ∀ s t : State, step s = .next t → s.phase ≠ .idle → t.phase = .idle →
    (s.select = .run .finish ∧ s.rem = 1 ∧ t.done = true) ∨
    (s.select = .run .poll ∧ s.dout = true ∧ t.timeout = true ∧
      ∃ k, s.params.readyTimeout = some k ∧ s.wcnt + 1 ≥ k) ∨
    s.select = .reset

/-- No host access disturbs a transaction in flight: of the block's thirteen elements only REJECT may change, and READY_TIMEOUT
with the other parameters stays (rules R78, R87, R39). -/
def Obligations.HostNeverDisturbsTransaction : Prop :=
  ∀ (s t : State) (a : Access) (rest : List Turn), s.turns = .host a :: rest → s.phase ≠ .idle → step s = .next t →
    SameTransaction s t ∧ t.params = s.params

/-- Rule R43: once a transaction is done, RESULT and RAW (and DONE) stay until an accepted command or a reset. -/
def Obligations.CompletedResultsStay : Prop :=
  ∀ s t : State, s.phase = .idle → step s = .next t → s.select ≠ .reset → (∀ i, s.select = .run i → ¬ accepts i s) →
    t.phase = .idle ∧ t.result = s.result ∧ t.raw = s.raw ∧ t.done = s.done ∧ t.timeout = s.timeout

/-- No step changes the platform's parameters (rules R7, R13: they are configuration, not state). -/
def Obligations.ParametersNeverChange : Prop :=
  ∀ s t : State, step s = .next t → t.params = s.params

/-- Rule R128: the five time intervals fix when steps happen, never what a step computes: with other intervals every step
ends the same way and in the same state but for the intervals. -/
def Obligations.TimingParametersHaveNoEffect : Prop :=
  ∀ (s : State) (τ : Config.Timing),
    (∀ t, step s = .next t →
      step { s with params := { s.params with timing := τ } } =
        .next { t with params := { t.params with timing := τ } }) ∧
    (∀ r, step s = .refused r → step { s with params := { s.params with timing := τ } } = .refused r)

/-- With READY_TIMEOUT = none, WCNT has no effect on anything but itself (rule R22). -/
def Obligations.WaitCountUnusedWithoutTimeout : Prop :=
  ∀ (s t : State) (w : Nat), s.params.readyTimeout = none → step s = .next t →
    ∃ w', step { s with wcnt := w } = .next { t with wcnt := w' }

/-- Rule R116: reset, from any state, sets every element of rule R13 to its reset value, and leaves the engine without a
step until the host issues an accepted command: no other step leaves IDLE. -/
def Obligations.ResetSetsEveryElement : Prop :=
  (∀ u v : State, u.phase = .idle → step u = .next v → v.phase ≠ .idle → ∃ i, u.select = .run i ∧ accepts i u) ∧
  ∀ (s : State) (rest : List Turn), s.turns = .reset :: rest → ∃ t, step s = .next t ∧
    t.sck = false ∧ t.phase = .idle ∧ t.bitcnt = 0 ∧ t.acc = 0 ∧ t.n = 0 ∧ t.rem = 0 ∧ t.sum = 0 ∧ t.wcnt = 0 ∧
    t.done = false ∧ t.timeout = false ∧ t.reject = .none ∧ t.result = 0 ∧ t.raw = 0 ∧
    SameBlock State.reset t ∧
    (∀ i : Instr, i.isHost = false → ¬ ∃ u, exec i t = .next u)

/-- A reset leaves what is not the block's: the parameters, the other turns, the device and what the host has read (the
model's choice, log 12). -/
def Obligations.ResetLeavesOutsideWorld : Prop :=
  ∀ (s t : State) (rest : List Turn), s.turns = .reset :: rest → step s = .next t →
    SameOutside { s with turns := rest } t

/-! ## The invariant -/

/-- Every state a run may start from meets the invariant (rules R29, R116). -/
def Obligations.StartMeetsInvariant : Prop :=
  ∀ s : State, Start s → Inv s

/-- Every step keeps the invariant: engine steps, host accesses and resets, in any order and for any data line. -/
def Obligations.StepKeepsInvariant : Prop :=
  ∀ s t : State, Inv s → step s = .next t → Inv t

/-- Rule R29, items 1 to 9, in every state reachable from reset. -/
def Obligations.ReachableStatesMeetRuleR29 : Prop :=
  ∀ s : State, Reachable s →
    ((s.sck = true ↔ s.phase = .sample ∨ s.phase = .fall ∨ s.phase = .xfall) ∧
      (s.phase = .idle ∨ s.phase = .wait → s.sck = false)) ∧
    (s.phase = .idle ∨ s.phase = .wait → s.bitcnt = 0 ∧ s.acc = 0) ∧
    (s.phase = .rise ∨ s.phase = .sample → s.bitcnt.toNat ≤ 23 ∧ s.acc.toNat < 2 ^ s.bitcnt.toNat) ∧
    (s.phase = .fall → s.bitcnt.toNat ≤ 23 ∧ s.acc.toNat < 2 ^ (s.bitcnt.toNat + 1)) ∧
    (s.phase = .xrise ∨ s.phase = .xfall ∨ s.phase = .finish → s.bitcnt.toNat = 24) ∧
    (s.phase ≠ .idle → 1 ≤ s.rem.toNat ∧ s.rem.toNat ≤ s.n.toNat ∧ s.n.toNat ≤ 255 ∧ s.done = false ∧
      s.timeout = false) ∧
    ¬ (s.done = true ∧ s.timeout = true) ∧
    (-2 ^ 23 ≤ s.result.toInt ∧ s.result.toInt ≤ 2 ^ 23 - 1) ∧
    s.reject.code ≠ 0b11

/-! ## Arithmetic -/

/-- Rules R90 and R91: decode24 is the two's-complement reading of the 24 bits, equals the signed reading of `sext_32`, lies
in [−2^23, 2^23 − 1], and is a bijection onto that range. -/
def Obligations.DecodeIsTwosComplement : Prop :=
  (∀ raw : Raw24,
    decode24 raw = (if raw.getLsbD 23 = true then (raw.toNat : Int) - 2 ^ 24 else (raw.toNat : Int)) ∧
    decode24 raw = raw.toInt ∧
    decode24 raw = (raw.signExtend 32).toInt ∧
    -2 ^ 23 ≤ decode24 raw ∧ decode24 raw ≤ 2 ^ 23 - 1) ∧
  (∀ raw raw' : Raw24, decode24 raw = decode24 raw' → raw = raw') ∧
  (∀ x : Int, -2 ^ 23 ≤ x → x ≤ 2 ^ 23 - 1 → ∃ raw : Raw24, decode24 raw = x)

/-- Rule R93: floor_div is the unique q with q·b ≤ a < (q + 1)·b, for every divisor a transaction can have; for a < 0 that b
does not divide it is one less than the truncating quotient. -/
def Obligations.FloorDivRoundsDown : Prop :=
  (∀ (a : Int) (n : BitVec 8), n ≠ 0 →
    floorDiv a n * n.toNat ≤ a ∧ a < (floorDiv a n + 1) * n.toNat ∧
    (∀ q : Int, q * n.toNat ≤ a → a < (q + 1) * n.toNat → q = floorDiv a n) ∧
    (a < 0 → ¬ (n.toNat : Int) ∣ a → floorDiv a n = Int.tdiv a n.toNat - 1)) ∧
  floorDiv (-7) 2 = -4

/-- Rules R21 and R92: where the invariant holds, FINISH adds the decoded sample to SUM exactly, and the sum stays within
[−255·2^23, 255·2^23 − 255]: SUM never wraps. -/
def Obligations.SumNeverWraps : Prop :=
  ∀ s : State, Inv s → s.phase = .finish → ∃ t, exec .finish s = .next t ∧
    t.sum.toInt = s.sum.toInt + decode24 s.acc ∧
    -2139095040 ≤ t.sum.toInt ∧ t.sum.toInt ≤ 2139094785

/-- Rules R94 and R95: the mean of n samples lies in the sample range, and the discarded remainder in 0..n−1; and where the
invariant holds, this mean of the exact sum is what the completing FINISH leaves in RESULT. -/
def Obligations.MeanInSampleRange : Prop :=
  (∀ (samples : List Int) (n : BitVec 8), n ≠ 0 → samples.length = n.toNat →
    (∀ x ∈ samples, -2 ^ 23 ≤ x ∧ x ≤ 2 ^ 23 - 1) →
    -2 ^ 23 ≤ floorDiv samples.sum n ∧ floorDiv samples.sum n ≤ 2 ^ 23 - 1 ∧
    0 ≤ samples.sum - (n.toNat : Int) * floorDiv samples.sum n ∧
    samples.sum - (n.toNat : Int) * floorDiv samples.sum n ≤ (n.toNat : Int) - 1) ∧
  (∀ s : State, Inv s → s.phase = .finish → s.rem = 1 → ∃ t, exec .finish s = .next t ∧
    t.result.toInt = floorDiv (s.sum.toInt + decode24 s.acc) s.n ∧
    -2 ^ 23 ≤ t.result.toInt ∧ t.result.toInt ≤ 2 ^ 23 - 1)

/-- The arithmetic laws of rule R97. -/
def Obligations.ArithmeticLaws : Prop :=
  (∀ raw : Raw24, raw.toNat ≤ 0x7FFFFF → decode24 raw = (raw.toNat : Int)) ∧
  (∀ raw raw' : Raw24, 0x800000 ≤ raw.toNat → raw.toNat < raw'.toNat →
    decode24 raw < decode24 raw' ∧ -8388608 ≤ decode24 raw ∧ decode24 raw' ≤ -1) ∧
  (∀ raw : Raw24, decode24 raw = -1 ↔ raw = 0xFFFFFF) ∧
  (∀ a : Int, floorDiv a 1 = a) ∧
  (∀ (s : Int) (n : BitVec 8), n ≠ 0 → floorDiv (n.toNat * s) n = s) ∧
  (∀ (a b : Int) (n : BitVec 8), n ≠ 0 → a ≤ b → floorDiv a n ≤ floorDiv b n) ∧
  (∀ s : State, Inv s → s.phase = .finish → s.n ≠ 0)

/-! ## Whole transactions -/

/-- A READ_RAW, in any word that selects it, issued to an idle block with a device that is ready after `r.waits` levels HIGH
(in time, where READY_TIMEOUT is some k), completes after p + 75 engine steps with the decoded sample of its 24 bits, most
significant first (rules R37, R74, R83, R88): RAW's bit 23 − j is the j-th level sampled. -/
def Obligations.ReadRawReturnsDecodedSample : Prop :=
  ∀ (s : State) (w : Word) (r : DeviceRead) (rest : List Level) (more : List Turn), s.phase = .idle → Inv s →
    opField w = 0b01#2 → r.inTime s.params 0 → r.bits.length = 24 → s.line = r.levels ++ rest →
    s.turns = .host (writeAccess s.params.base .cmd w) :: (List.replicate r.steps .engine ++ more) →
    ∃ t, run (1 + r.steps) s = .next t ∧
      t.phase = .idle ∧ t.done = true ∧ t.timeout = false ∧ t.reject = .none ∧ t.sck = false ∧
      t.result.toInt = r.sample ∧ t.raw = rawOf r.bits ∧
      (∀ j, j < 24 → t.raw.getLsbD (23 - j) = r.bits.getD j false) ∧
      t.n = 1 ∧ t.rem = 0 ∧ t.turns = more ∧ t.line = rest ∧ t.returned = s.returned

/-- A READ_AVG of n reads, in any word that selects it, issued to an idle block with a device that is ready in time for each
read, completes with the floor mean of the n decoded samples, each read waiting for ready on its own, and RAW holds the last
read's bits (rules R64, R74, R84, R93). -/
def Obligations.ReadAvgReturnsFloorMean : Prop :=
  ∀ (s : State) (w : Word) (reads : List DeviceRead) (last : DeviceRead) (rest : List Level) (more : List Turn),
    s.phase = .idle → Inv s → opField w = 0b10#2 → (∀ r ∈ reads ++ [last], r.inTime s.params 0) →
    (reads ++ [last]).length = (nField w).toNat → (∀ r ∈ reads ++ [last], r.bits.length = 24) →
    s.line = ((reads ++ [last]).flatMap DeviceRead.levels) ++ rest →
    s.turns = .host (writeAccess s.params.base .cmd w) ::
      (List.replicate ((reads ++ [last]).map DeviceRead.steps).sum .engine ++ more) →
    ∃ t, run (1 + ((reads ++ [last]).map DeviceRead.steps).sum) s = .next t ∧
      t.phase = .idle ∧ t.done = true ∧ t.timeout = false ∧ t.reject = .none ∧ t.sck = false ∧
      t.result.toInt = Int.fdiv (((reads ++ [last]).map DeviceRead.sample).sum) (nField w).toNat ∧
      t.raw = rawOf last.bits ∧ t.n = nField w ∧ t.rem = 0 ∧ t.turns = more ∧ t.line = rest

/-- Rules R67 and R102, for every finite length of the hang; that an order of the agents and a device stand in the state as
lists with free values past their ends is the model's choice (logs 1 and 3). With READY_TIMEOUT = none, a POLL that draws HIGH
leaves the state as it was but for the turn and the level used up; as long as every POLL draws HIGH, listed or free, every run
without a reset, whatever the host does in it, keeps the engine polling with BUSY 1 and DONE 0; and k turns of the engine
against k draws that are HIGH are k POLLs. -/
def Obligations.UnreadyDeviceHangsPolling : Prop :=
  (∀ s : State, s.phase = .wait → s.params.readyTimeout = none → s.select = .run .poll → s.dout = true →
    step s = .next s.advance.afterDraw) ∧
  (∀ (s t : State) (k : Nat), s.phase = .wait → s.params.readyTimeout = none →
    (∀ j u, j < k → run j s = .next u → u.select ≠ .reset ∧ (u.select = .run .poll → u.dout = true)) →
    run k s = .next t →
    SameTransaction s t ∧ t.params = s.params ∧ t.busy = true ∧ (∀ d, (t.statusWord d).getLsbD 0 = true) ∧
    decodePhase t.phase = some .poll ∧ (Inv s → t.done = false)) ∧
  (∀ (s : State) (k : Nat) (more : List Turn), s.phase = .wait → s.params.readyTimeout = none →
    s.turns = List.replicate k .engine ++ more → (∀ j, j < k → levelAt s j = true) →
    run k s = .next { s with turns := more, line := s.line.drop k, drawIx := s.drawIx + (k - s.line.length) })

/-- Rule R101: with READY_TIMEOUT = some k, k POLLs in a row that see HIGH end the transaction, and one fewer do not: IDLE,
TIMEOUT = 1, everything else as it was, SCK LOW and DONE = 0. With READY_TIMEOUT = none no step sets TIMEOUT. -/
def Obligations.ReadyTimeoutAfterKPolls : Prop :=
  (∀ (s : State) (k : Nat) (more : List Turn), Inv s → s.phase = .wait → s.params.readyTimeout = some (k + 1) →
    s.wcnt = 0 → s.turns = List.replicate (k + 1) .engine ++ more → (∀ j, j < k + 1 → levelAt s j = true) →
    run k s = .next
      { s with
        wcnt := k
        turns := .engine :: more
        line := s.line.drop k
        drawIx := s.drawIx + (k - s.line.length) } ∧
    run (k + 1) s = .next
      { s with
        wcnt := 0
        timeout := true
        phase := .idle
        turns := more
        line := s.line.drop (k + 1)
        drawIx := s.drawIx + (k + 1 - s.line.length) } ∧
    s.sck = false ∧ s.done = false) ∧
  (∀ s t : State, s.params.readyTimeout = none → s.timeout = false → step s = .next t → t.timeout = false)

/-- Rules R62, R63 and R75, the device's view of one read that becomes ready, in time where READY_TIMEOUT is some k: SCK LOW
through the wait, then 24 data pulses each sampled once between its rising and its falling edge, then one extra pulse not
sampled, ending LOW; 25 rising and 25 falling edges. -/
def Obligations.DeviceSeesOneRead : Prop :=
  ∀ (s : State) (r : DeviceRead) (rest : List Level) (more : List Turn), s.phase = .wait → Inv s →
    r.inTime s.params s.wcnt → s.turns = List.replicate r.steps .engine ++ more → r.bits.length = 24 →
    s.line = r.levels ++ rest →
    pinTrace r.steps s = readPins r.waits ∧ s.sck = false ∧
    risingEdges false ((readPins r.waits).map Prod.fst) = 25 ∧
    fallingEdges false ((readPins r.waits).map Prod.fst) = 25

/-- Rule R74's minimum: after acceptance of n reads, as long as no reset comes and no other command is accepted, fewer than
76·n engine steps leave DONE at 0, whatever the device does, whatever the host does meanwhile and whatever READY_TIMEOUT is. -/
def Obligations.NoCompletionBeforeMinimum : Prop :=
  ∀ (s t u : State) (i : Instr) (n : BitVec 8) (k : Nat), s.phase = .idle →
    (i = .readRaw ∧ n = 1 ∨ n ≠ 0 ∧ i = .readAvg n) → exec i s = .next u →
    (∀ j v, j < k → run j u = .next v → v.select ≠ .reset ∧ ∀ i', v.select = .run i' → ¬ accepts i' v) →
    engineSteps k u < 76 * n.toNat → run k u = .next t → t.done = false

/-- Rule R42: a STATUS read right after an accepted command returns BUSY = 1. -/
def Obligations.BusyRightAfterAcceptance : Prop :=
  ∀ (s : State) (a : Access) (rest : List Turn) (i : Instr), accepts i s →
    decode s.params.base (.access a) = .ok i →
    s.turns = .host a :: .host (readAccess s.params.base .status) :: rest →
    ∃ t w, run 2 s = .next t ∧ t.returned = w :: s.returned ∧ w.getLsbD 0 = true ∧ t.turns = rest

/-- Rule R105: a legal command due together with the completing FINISH has two runs, one accepted after the FINISH, one refused
as BUSY before it; an illegal one is refused as ILLEGAL in both. -/
def Obligations.FinishAndCommandInEitherOrder : Prop :=
  ∀ (s : State) (w : Word) (more : List Turn), s.phase = .finish → s.rem = 1 →
    (∃ t, run 2 { s with turns := .engine :: .host (writeAccess s.params.base .cmd w) :: more } = .next t ∧
      t.raw = s.acc ∧ t.turns = more ∧
      (legalCommand w → t.phase = .wait ∧ t.reject = .none ∧ t.done = false ∧ t.n = commandCount w) ∧
      (¬ legalCommand w → t.phase = .idle ∧ t.reject = .illegal ∧ t.done = true)) ∧
    (∃ t, run 2 { s with turns := .host (writeAccess s.params.base .cmd w) :: .engine :: more } = .next t ∧
      t.phase = .idle ∧ t.done = true ∧ t.raw = s.acc ∧ t.turns = more ∧
      (legalCommand w → t.reject = .busy) ∧ (¬ legalCommand w → t.reject = .illegal))

/-- Rule R110, weak fairness: with a transaction in flight, after at most as many steps as turns are listed (none of them a
reset or an unsupported access) the engine's step named by the same PHASE is the next one. Every list of turns, the free ones
past its end among them, is finite (the model's choice, log 1). -/
def Obligations.EngineEventuallySteps : Prop :=
  ∀ s : State, s.phase ≠ .idle →
    (∀ turn ∈ s.turns, turn = .engine ∨ ∃ a i, turn = .host a ∧ decode s.params.base (.access a) = .ok i) →
    ∃ j t i, j ≤ s.turns.length ∧ run j s = .next t ∧ SameTransaction s t ∧
      decodePhase s.phase = some i ∧ t.select = .run i
end

