-- ==== Sys2Proof/Laws/Arith.lean ====
section
/-! SUPPORT. The arithmetic operations in terms of integer arithmetic. -/

namespace Sys2Proof.Machine

/-- `floorDiv` by a count of samples is the integer quotient of the library, whose divisor is positive. -/
theorem floorDiv_eq_ediv (a : Int) {n : BitVec 8} (hn : n ≠ 0) :
    floorDiv a n = a / (n.toNat : Int) ∧ (0 : Int) < n.toNat := by
  have h0 : n.toNat ≠ 0 := fun h => hn (by bv_omega)
  refine ⟨?_, by omega⟩
  unfold floorDiv
  rw [if_neg hn, Int.fdiv_eq_ediv_of_nonneg _ (by omega)]

/-- A 32-bit word holds every integer in its signed range. -/
theorem toInt_trunc32 {x : Int} (h1 : -2 ^ 31 ≤ x) (h2 : x < 2 ^ 31) : (trunc32 x).toInt = x := by
  rw [trunc32, BitVec.toInt_ofInt]
  simp only [Int.bmod]
  omega

end Sys2Proof.Machine
end

