-- ==== Sys2Proof/Laws/Decode.lean ====
section
/-! SUPPORT. What the decoder answers on the accesses of rule R35 and on those the encoder makes. -/

namespace Sys2Proof

/-- An access is resolved exactly when rule R35 supports it. -/
theorem Access.resolve_eq_ok_iff (base : Nat) (a : Access) (reg : Reg) :
    a.resolve base = .ok reg ↔ a.size = 4 ∧ a.addr = base + reg.offset := by
  unfold Access.resolve Reg.ofOffset
  constructor
  · intro h
    split at h
    · cases h
    · split at h
      · cases h
      · split at h
        next hsize hwin _ r hr =>
          cases h
          refine ⟨by omega, ?_⟩
          split at hr
          · cases hr; simp [Reg.offset]; omega
          · split at hr
            · cases hr; simp [Reg.offset]; omega
            · split at hr
              · cases hr; simp [Reg.offset]; omega
              · split at hr
                · cases hr; simp [Reg.offset]; omega
                · cases hr
        · cases h
  · rintro ⟨hsize, haddr⟩
    cases reg <;> simp [Reg.offset] at haddr <;> simp [hsize, haddr]

theorem Access.resolve_writeAccess (base : Nat) (reg : Reg) (w : Word) :
    (writeAccess base reg w).resolve base = .ok reg :=
  (Access.resolve_eq_ok_iff ..).2 ⟨rfl, rfl⟩

theorem Access.resolve_readAccess (base : Nat) (reg : Reg) : (readAccess base reg).resolve base = .ok reg :=
  (Access.resolve_eq_ok_iff ..).2 ⟨rfl, rfl⟩

@[simp] theorem decodeAccess_writeAccess (base : Nat) (reg : Reg) (w : Word) :
    decodeAccess base (writeAccess base reg w) = .ok (decodeTransaction .write reg w) := by
  unfold decodeAccess
  rw [Access.resolve_writeAccess]
  rfl

@[simp] theorem decodeAccess_readAccess (base : Nat) (reg : Reg) :
    decodeAccess base (readAccess base reg) = .ok (decodeTransaction .read reg 0) := by
  unfold decodeAccess
  rw [Access.resolve_readAccess]
  rfl

/-- A decoded access is one of rule R35, and its operation is that of its transaction. -/
theorem decodeAccess_eq_ok_iff (base : Nat) (a : Access) (i : Instr) :
    decodeAccess base a = .ok i ↔
      ∃ reg, a.size = 4 ∧ a.addr = base + reg.offset ∧ i = decodeTransaction a.dir reg a.data := by
  unfold decodeAccess
  constructor
  · intro h
    split at h
    next reg hr =>
      cases h
      obtain ⟨h1, h2⟩ := (Access.resolve_eq_ok_iff ..).1 hr
      exact ⟨reg, h1, h2, rfl⟩
    · cases h
  · rintro ⟨reg, h1, h2, rfl⟩
    rw [(Access.resolve_eq_ok_iff ..).2 ⟨h1, h2⟩]

theorem decode_access_eq_ok_iff (base : Nat) (a : Access) (i : Instr) :
    decode base (.access a) = .ok i ↔ decodeAccess base a = .ok i := by
  simp only [decode]
  cases decodeAccess base a <;> simp

theorem decode_phase_eq_ok_iff (base : Nat) (p : Phase) (i : Instr) :
    decode base (.phase p) = .ok i ↔ decodePhase p = some i := by
  simp only [decode]
  cases decodePhase p <;> simp

/-- A command word decodes to a well-formed host operation. -/
theorem decodeCommand_cases (w : Word) :
    (opField w = 0b00#2 ∧ decodeCommand w = .cmdIllegal00) ∨
    (opField w = 0b11#2 ∧ decodeCommand w = .cmdIllegal11) ∨
    (opField w = 0b01#2 ∧ decodeCommand w = .readRaw) ∨
    (opField w = 0b10#2 ∧ nField w = 0 ∧ decodeCommand w = .cmdAvgZero) ∨
    (opField w = 0b10#2 ∧ nField w ≠ 0 ∧ decodeCommand w = .readAvg (nField w)) := by
  have hop : ∀ o : BitVec 2, o = 0b00#2 ∨ o = 0b11#2 ∨ o = 0b01#2 ∨ o = 0b10#2 := by decide
  unfold decodeCommand
  rcases hop (opField w) with h | h | h | h
  · exact .inl ⟨h, by rw [if_pos h]⟩
  · exact .inr (.inl ⟨h, by rw [h]; rfl⟩)
  · exact .inr (.inr (.inl ⟨h, by rw [h]; rfl⟩))
  · by_cases hn : nField w = 0
    · exact .inr (.inr (.inr (.inl ⟨h, hn, by rw [h, if_pos hn]; rfl⟩)))
    · exact .inr (.inr (.inr (.inr ⟨h, hn, by rw [h, if_neg hn]; rfl⟩)))

/-- The fields of a READ_AVG word. -/
@[simp] theorem opField_readAvgWord (n : BitVec 8) : opField (readAvgWord n) = 0b10#2 := by
  revert n; decide

@[simp] theorem nField_readAvgWord (n : BitVec 8) : nField (readAvgWord n) = n := by
  revert n; decide

end Sys2Proof
end

