-- ==== Sys2Proof/Laws/Flags.lean ====
section
/-! SUPPORT. The bits of the STATUS word. -/

namespace Sys2Proof.Machine

/-- The fields of the STATUS word at their places (rule R54). -/
theorem statusWord_bits (s : State) (d : Level) :
    (s.statusWord d).getLsbD 0 = s.busy ∧ (s.statusWord d).getLsbD 1 = !d ∧ (s.statusWord d).getLsbD 2 = s.done ∧
    (s.statusWord d).getLsbD 3 = s.timeout ∧ (s.statusWord d).getLsbD 4 = s.reject.code.getLsbD 0 ∧
    (s.statusWord d).getLsbD 5 = s.reject.code.getLsbD 1 ∧ (s.statusWord d).getLsbD 8 = s.sck := by
  unfold State.statusWord
  generalize s.sck = a
  generalize s.timeout = c
  generalize s.done = e
  generalize s.busy = g
  generalize s.reject.code = f
  revert a c e g f d
  decide

end Sys2Proof.Machine
end

