-- ==== Sys2Proof/Laws/State.lean ====
section
/-! SUPPORT. What each named update of the state leaves in each field. -/

namespace Sys2Proof.Machine.State

/-! ### setSck -/

@[simp] theorem setSck_sck (b : Level) (s : State) : (s.setSck b).sck = b := rfl
@[simp] theorem setSck_phase (b : Level) (s : State) : (s.setSck b).phase = s.phase := rfl
@[simp] theorem setSck_bitcnt (b : Level) (s : State) : (s.setSck b).bitcnt = s.bitcnt := rfl
@[simp] theorem setSck_acc (b : Level) (s : State) : (s.setSck b).acc = s.acc := rfl
@[simp] theorem setSck_n (b : Level) (s : State) : (s.setSck b).n = s.n := rfl
@[simp] theorem setSck_rem (b : Level) (s : State) : (s.setSck b).rem = s.rem := rfl
@[simp] theorem setSck_sum (b : Level) (s : State) : (s.setSck b).sum = s.sum := rfl
@[simp] theorem setSck_wcnt (b : Level) (s : State) : (s.setSck b).wcnt = s.wcnt := rfl
@[simp] theorem setSck_done (b : Level) (s : State) : (s.setSck b).done = s.done := rfl
@[simp] theorem setSck_timeout (b : Level) (s : State) : (s.setSck b).timeout = s.timeout := rfl
@[simp] theorem setSck_reject (b : Level) (s : State) : (s.setSck b).reject = s.reject := rfl
@[simp] theorem setSck_result (b : Level) (s : State) : (s.setSck b).result = s.result := rfl
@[simp] theorem setSck_raw (b : Level) (s : State) : (s.setSck b).raw = s.raw := rfl
@[simp] theorem setSck_params (b : Level) (s : State) : (s.setSck b).params = s.params := rfl
@[simp] theorem setSck_turns (b : Level) (s : State) : (s.setSck b).turns = s.turns := rfl
@[simp] theorem setSck_turnIx (b : Level) (s : State) : (s.setSck b).turnIx = s.turnIx := rfl
@[simp] theorem setSck_line (b : Level) (s : State) : (s.setSck b).line = s.line := rfl
@[simp] theorem setSck_drawIx (b : Level) (s : State) : (s.setSck b).drawIx = s.drawIx := rfl
@[simp] theorem setSck_returned (b : Level) (s : State) : (s.setSck b).returned = s.returned := rfl

/-! ### setPhase -/

@[simp] theorem setPhase_sck (p : Phase) (s : State) : (s.setPhase p).sck = s.sck := rfl
@[simp] theorem setPhase_phase (p : Phase) (s : State) : (s.setPhase p).phase = p := rfl
@[simp] theorem setPhase_bitcnt (p : Phase) (s : State) : (s.setPhase p).bitcnt = s.bitcnt := rfl
@[simp] theorem setPhase_acc (p : Phase) (s : State) : (s.setPhase p).acc = s.acc := rfl
@[simp] theorem setPhase_n (p : Phase) (s : State) : (s.setPhase p).n = s.n := rfl
@[simp] theorem setPhase_rem (p : Phase) (s : State) : (s.setPhase p).rem = s.rem := rfl
@[simp] theorem setPhase_sum (p : Phase) (s : State) : (s.setPhase p).sum = s.sum := rfl
@[simp] theorem setPhase_wcnt (p : Phase) (s : State) : (s.setPhase p).wcnt = s.wcnt := rfl
@[simp] theorem setPhase_done (p : Phase) (s : State) : (s.setPhase p).done = s.done := rfl
@[simp] theorem setPhase_timeout (p : Phase) (s : State) : (s.setPhase p).timeout = s.timeout := rfl
@[simp] theorem setPhase_reject (p : Phase) (s : State) : (s.setPhase p).reject = s.reject := rfl
@[simp] theorem setPhase_result (p : Phase) (s : State) : (s.setPhase p).result = s.result := rfl
@[simp] theorem setPhase_raw (p : Phase) (s : State) : (s.setPhase p).raw = s.raw := rfl
@[simp] theorem setPhase_params (p : Phase) (s : State) : (s.setPhase p).params = s.params := rfl
@[simp] theorem setPhase_turns (p : Phase) (s : State) : (s.setPhase p).turns = s.turns := rfl
@[simp] theorem setPhase_turnIx (p : Phase) (s : State) : (s.setPhase p).turnIx = s.turnIx := rfl
@[simp] theorem setPhase_line (p : Phase) (s : State) : (s.setPhase p).line = s.line := rfl
@[simp] theorem setPhase_drawIx (p : Phase) (s : State) : (s.setPhase p).drawIx = s.drawIx := rfl
@[simp] theorem setPhase_returned (p : Phase) (s : State) : (s.setPhase p).returned = s.returned := rfl

/-! ### returnWord -/

@[simp] theorem returnWord_sck (w : Word) (s : State) : (s.returnWord w).sck = s.sck := rfl
@[simp] theorem returnWord_phase (w : Word) (s : State) : (s.returnWord w).phase = s.phase := rfl
@[simp] theorem returnWord_bitcnt (w : Word) (s : State) : (s.returnWord w).bitcnt = s.bitcnt := rfl
@[simp] theorem returnWord_acc (w : Word) (s : State) : (s.returnWord w).acc = s.acc := rfl
@[simp] theorem returnWord_n (w : Word) (s : State) : (s.returnWord w).n = s.n := rfl
@[simp] theorem returnWord_rem (w : Word) (s : State) : (s.returnWord w).rem = s.rem := rfl
@[simp] theorem returnWord_sum (w : Word) (s : State) : (s.returnWord w).sum = s.sum := rfl
@[simp] theorem returnWord_wcnt (w : Word) (s : State) : (s.returnWord w).wcnt = s.wcnt := rfl
@[simp] theorem returnWord_done (w : Word) (s : State) : (s.returnWord w).done = s.done := rfl
@[simp] theorem returnWord_timeout (w : Word) (s : State) : (s.returnWord w).timeout = s.timeout := rfl
@[simp] theorem returnWord_reject (w : Word) (s : State) : (s.returnWord w).reject = s.reject := rfl
@[simp] theorem returnWord_result (w : Word) (s : State) : (s.returnWord w).result = s.result := rfl
@[simp] theorem returnWord_raw (w : Word) (s : State) : (s.returnWord w).raw = s.raw := rfl
@[simp] theorem returnWord_params (w : Word) (s : State) : (s.returnWord w).params = s.params := rfl
@[simp] theorem returnWord_turns (w : Word) (s : State) : (s.returnWord w).turns = s.turns := rfl
@[simp] theorem returnWord_turnIx (w : Word) (s : State) : (s.returnWord w).turnIx = s.turnIx := rfl
@[simp] theorem returnWord_line (w : Word) (s : State) : (s.returnWord w).line = s.line := rfl
@[simp] theorem returnWord_drawIx (w : Word) (s : State) : (s.returnWord w).drawIx = s.drawIx := rfl
@[simp] theorem returnWord_returned (w : Word) (s : State) : (s.returnWord w).returned = w :: s.returned := rfl

/-! ### recordReject -/

@[simp] theorem recordReject_sck (c : Reject) (s : State) : (s.recordReject c).sck = s.sck := rfl
@[simp] theorem recordReject_phase (c : Reject) (s : State) : (s.recordReject c).phase = s.phase := rfl
@[simp] theorem recordReject_bitcnt (c : Reject) (s : State) : (s.recordReject c).bitcnt = s.bitcnt := rfl
@[simp] theorem recordReject_acc (c : Reject) (s : State) : (s.recordReject c).acc = s.acc := rfl
@[simp] theorem recordReject_n (c : Reject) (s : State) : (s.recordReject c).n = s.n := rfl
@[simp] theorem recordReject_rem (c : Reject) (s : State) : (s.recordReject c).rem = s.rem := rfl
@[simp] theorem recordReject_sum (c : Reject) (s : State) : (s.recordReject c).sum = s.sum := rfl
@[simp] theorem recordReject_wcnt (c : Reject) (s : State) : (s.recordReject c).wcnt = s.wcnt := rfl
@[simp] theorem recordReject_done (c : Reject) (s : State) : (s.recordReject c).done = s.done := rfl
@[simp] theorem recordReject_timeout (c : Reject) (s : State) : (s.recordReject c).timeout = s.timeout := rfl
@[simp] theorem recordReject_reject (c : Reject) (s : State) : (s.recordReject c).reject = c := rfl
@[simp] theorem recordReject_result (c : Reject) (s : State) : (s.recordReject c).result = s.result := rfl
@[simp] theorem recordReject_raw (c : Reject) (s : State) : (s.recordReject c).raw = s.raw := rfl
@[simp] theorem recordReject_params (c : Reject) (s : State) : (s.recordReject c).params = s.params := rfl
@[simp] theorem recordReject_turns (c : Reject) (s : State) : (s.recordReject c).turns = s.turns := rfl
@[simp] theorem recordReject_turnIx (c : Reject) (s : State) : (s.recordReject c).turnIx = s.turnIx := rfl
@[simp] theorem recordReject_line (c : Reject) (s : State) : (s.recordReject c).line = s.line := rfl
@[simp] theorem recordReject_drawIx (c : Reject) (s : State) : (s.recordReject c).drawIx = s.drawIx := rfl
@[simp] theorem recordReject_returned (c : Reject) (s : State) : (s.recordReject c).returned = s.returned := rfl

/-! ### accept -/

@[simp] theorem accept_sck (n : BitVec 8) (s : State) : (s.accept n).sck = s.sck := rfl
@[simp] theorem accept_phase (n : BitVec 8) (s : State) : (s.accept n).phase = .wait := rfl
@[simp] theorem accept_bitcnt (n : BitVec 8) (s : State) : (s.accept n).bitcnt = 0 := rfl
@[simp] theorem accept_acc (n : BitVec 8) (s : State) : (s.accept n).acc = 0 := rfl
@[simp] theorem accept_n (n : BitVec 8) (s : State) : (s.accept n).n = n := rfl
@[simp] theorem accept_rem (n : BitVec 8) (s : State) : (s.accept n).rem = n := rfl
@[simp] theorem accept_sum (n : BitVec 8) (s : State) : (s.accept n).sum = 0 := rfl
@[simp] theorem accept_wcnt (n : BitVec 8) (s : State) : (s.accept n).wcnt = 0 := rfl
@[simp] theorem accept_done (n : BitVec 8) (s : State) : (s.accept n).done = false := rfl
@[simp] theorem accept_timeout (n : BitVec 8) (s : State) : (s.accept n).timeout = false := rfl
@[simp] theorem accept_reject (n : BitVec 8) (s : State) : (s.accept n).reject = .none := rfl
@[simp] theorem accept_result (n : BitVec 8) (s : State) : (s.accept n).result = s.result := rfl
@[simp] theorem accept_raw (n : BitVec 8) (s : State) : (s.accept n).raw = s.raw := rfl
@[simp] theorem accept_params (n : BitVec 8) (s : State) : (s.accept n).params = s.params := rfl
@[simp] theorem accept_turns (n : BitVec 8) (s : State) : (s.accept n).turns = s.turns := rfl
@[simp] theorem accept_turnIx (n : BitVec 8) (s : State) : (s.accept n).turnIx = s.turnIx := rfl
@[simp] theorem accept_line (n : BitVec 8) (s : State) : (s.accept n).line = s.line := rfl
@[simp] theorem accept_drawIx (n : BitVec 8) (s : State) : (s.accept n).drawIx = s.drawIx := rfl
@[simp] theorem accept_returned (n : BitVec 8) (s : State) : (s.accept n).returned = s.returned := rfl

/-! ### timeOut -/

@[simp] theorem timeOut_sck (s : State) : (s.timeOut).sck = s.sck := rfl
@[simp] theorem timeOut_phase (s : State) : (s.timeOut).phase = .idle := rfl
@[simp] theorem timeOut_bitcnt (s : State) : (s.timeOut).bitcnt = s.bitcnt := rfl
@[simp] theorem timeOut_acc (s : State) : (s.timeOut).acc = s.acc := rfl
@[simp] theorem timeOut_n (s : State) : (s.timeOut).n = s.n := rfl
@[simp] theorem timeOut_rem (s : State) : (s.timeOut).rem = s.rem := rfl
@[simp] theorem timeOut_sum (s : State) : (s.timeOut).sum = s.sum := rfl
@[simp] theorem timeOut_wcnt (s : State) : (s.timeOut).wcnt = 0 := rfl
@[simp] theorem timeOut_done (s : State) : (s.timeOut).done = s.done := rfl
@[simp] theorem timeOut_timeout (s : State) : (s.timeOut).timeout = true := rfl
@[simp] theorem timeOut_reject (s : State) : (s.timeOut).reject = s.reject := rfl
@[simp] theorem timeOut_result (s : State) : (s.timeOut).result = s.result := rfl
@[simp] theorem timeOut_raw (s : State) : (s.timeOut).raw = s.raw := rfl
@[simp] theorem timeOut_params (s : State) : (s.timeOut).params = s.params := rfl
@[simp] theorem timeOut_turns (s : State) : (s.timeOut).turns = s.turns := rfl
@[simp] theorem timeOut_turnIx (s : State) : (s.timeOut).turnIx = s.turnIx := rfl
@[simp] theorem timeOut_line (s : State) : (s.timeOut).line = s.line := rfl
@[simp] theorem timeOut_drawIx (s : State) : (s.timeOut).drawIx = s.drawIx := rfl
@[simp] theorem timeOut_returned (s : State) : (s.timeOut).returned = s.returned := rfl

/-! ### applyReset -/

@[simp] theorem applyReset_sck (s : State) : (s.applyReset).sck = false := rfl
@[simp] theorem applyReset_phase (s : State) : (s.applyReset).phase = .idle := rfl
@[simp] theorem applyReset_bitcnt (s : State) : (s.applyReset).bitcnt = 0 := rfl
@[simp] theorem applyReset_acc (s : State) : (s.applyReset).acc = 0 := rfl
@[simp] theorem applyReset_n (s : State) : (s.applyReset).n = 0 := rfl
@[simp] theorem applyReset_rem (s : State) : (s.applyReset).rem = 0 := rfl
@[simp] theorem applyReset_sum (s : State) : (s.applyReset).sum = 0 := rfl
@[simp] theorem applyReset_wcnt (s : State) : (s.applyReset).wcnt = 0 := rfl
@[simp] theorem applyReset_done (s : State) : (s.applyReset).done = false := rfl
@[simp] theorem applyReset_timeout (s : State) : (s.applyReset).timeout = false := rfl
@[simp] theorem applyReset_reject (s : State) : (s.applyReset).reject = .none := rfl
@[simp] theorem applyReset_result (s : State) : (s.applyReset).result = 0 := rfl
@[simp] theorem applyReset_raw (s : State) : (s.applyReset).raw = 0 := rfl
@[simp] theorem applyReset_params (s : State) : (s.applyReset).params = s.params := rfl
@[simp] theorem applyReset_turns (s : State) : (s.applyReset).turns = s.turns := rfl
@[simp] theorem applyReset_turnIx (s : State) : (s.applyReset).turnIx = s.turnIx := rfl
@[simp] theorem applyReset_line (s : State) : (s.applyReset).line = s.line := rfl
@[simp] theorem applyReset_drawIx (s : State) : (s.applyReset).drawIx = s.drawIx := rfl
@[simp] theorem applyReset_returned (s : State) : (s.applyReset).returned = s.returned := rfl

/-! ### advance -/

/-- Choosing the next step changes only what the model holds of the agents' turns. -/
theorem schedule_frame (s : State) (ts : List Turn) :
    (s.schedule ts).2 = { s with turns := (s.schedule ts).2.turns, turnIx := (s.schedule ts).2.turnIx } := by
  induction ts with
  | nil => rfl
  | cons turn rest ih =>
    cases turn with
    | engine =>
      unfold schedule
      split
      · rfl
      · exact ih
    | host a => rfl
    | reset => rfl

theorem advance_eq (s : State) : s.advance = { s with turns := s.advance.turns, turnIx := s.advance.turnIx } :=
  schedule_frame s s.turns

/-- Choosing from a list does not look at the turns the state holds. -/
theorem schedule_of_turns (s : State) (held ts : List Turn) :
    ({ s with turns := held } : State).schedule ts = s.schedule ts := by
  induction ts with
  | nil => rfl
  | cons turn rest ih =>
    cases turn with
    | engine =>
      unfold schedule
      rw [ih]
    | host a => rfl
    | reset => rfl

/-- Which step comes next hangs on PHASE, BASE and the turns alone. -/
theorem schedule_congr {s s' : State} (hp : s'.phase = s.phase) (hb : s'.params.base = s.params.base)
    (hk : s'.turnIx = s.turnIx) (ts : List Turn) :
    (s'.schedule ts).1 = (s.schedule ts).1 ∧ (s'.schedule ts).2.turns = (s.schedule ts).2.turns ∧
    (s'.schedule ts).2.turnIx = (s.schedule ts).2.turnIx := by
  induction ts with
  | nil => simp [schedule, hp, hb, hk]
  | cons turn rest ih =>
    cases turn with
    | engine =>
      unfold schedule
      rw [hp]
      cases decodePhase s.phase with
      | some i => simp [hk]
      | none => exact ih
    | host a => simp [schedule, hb, hk]
    | reset => simp [schedule, hk]

@[simp] theorem advance_sck (s : State) : (s.advance).sck = s.sck := by rw [advance_eq]
@[simp] theorem advance_phase (s : State) : (s.advance).phase = s.phase := by rw [advance_eq]
@[simp] theorem advance_bitcnt (s : State) : (s.advance).bitcnt = s.bitcnt := by rw [advance_eq]
@[simp] theorem advance_acc (s : State) : (s.advance).acc = s.acc := by rw [advance_eq]
@[simp] theorem advance_n (s : State) : (s.advance).n = s.n := by rw [advance_eq]
@[simp] theorem advance_rem (s : State) : (s.advance).rem = s.rem := by rw [advance_eq]
@[simp] theorem advance_sum (s : State) : (s.advance).sum = s.sum := by rw [advance_eq]
@[simp] theorem advance_wcnt (s : State) : (s.advance).wcnt = s.wcnt := by rw [advance_eq]
@[simp] theorem advance_done (s : State) : (s.advance).done = s.done := by rw [advance_eq]
@[simp] theorem advance_timeout (s : State) : (s.advance).timeout = s.timeout := by rw [advance_eq]
@[simp] theorem advance_reject (s : State) : (s.advance).reject = s.reject := by rw [advance_eq]
@[simp] theorem advance_result (s : State) : (s.advance).result = s.result := by rw [advance_eq]
@[simp] theorem advance_raw (s : State) : (s.advance).raw = s.raw := by rw [advance_eq]
@[simp] theorem advance_params (s : State) : (s.advance).params = s.params := by rw [advance_eq]
@[simp] theorem advance_line (s : State) : (s.advance).line = s.line := by rw [advance_eq]
@[simp] theorem advance_drawIx (s : State) : (s.advance).drawIx = s.drawIx := by rw [advance_eq]
@[simp] theorem advance_returned (s : State) : (s.advance).returned = s.returned := by rw [advance_eq]

/-! ### offer -/

@[simp] theorem offer_sck (a : Access) (s : State) : (s.offer a).sck = s.sck := rfl
@[simp] theorem offer_phase (a : Access) (s : State) : (s.offer a).phase = s.phase := rfl
@[simp] theorem offer_bitcnt (a : Access) (s : State) : (s.offer a).bitcnt = s.bitcnt := rfl
@[simp] theorem offer_acc (a : Access) (s : State) : (s.offer a).acc = s.acc := rfl
@[simp] theorem offer_n (a : Access) (s : State) : (s.offer a).n = s.n := rfl
@[simp] theorem offer_rem (a : Access) (s : State) : (s.offer a).rem = s.rem := rfl
@[simp] theorem offer_sum (a : Access) (s : State) : (s.offer a).sum = s.sum := rfl
@[simp] theorem offer_wcnt (a : Access) (s : State) : (s.offer a).wcnt = s.wcnt := rfl
@[simp] theorem offer_done (a : Access) (s : State) : (s.offer a).done = s.done := rfl
@[simp] theorem offer_timeout (a : Access) (s : State) : (s.offer a).timeout = s.timeout := rfl
@[simp] theorem offer_reject (a : Access) (s : State) : (s.offer a).reject = s.reject := rfl
@[simp] theorem offer_result (a : Access) (s : State) : (s.offer a).result = s.result := rfl
@[simp] theorem offer_raw (a : Access) (s : State) : (s.offer a).raw = s.raw := rfl
@[simp] theorem offer_params (a : Access) (s : State) : (s.offer a).params = s.params := rfl
@[simp] theorem offer_turns (a : Access) (s : State) : (s.offer a).turns = .host a :: s.turns := rfl
@[simp] theorem offer_turnIx (a : Access) (s : State) : (s.offer a).turnIx = s.turnIx := rfl
@[simp] theorem offer_line (a : Access) (s : State) : (s.offer a).line = s.line := rfl
@[simp] theorem offer_drawIx (a : Access) (s : State) : (s.offer a).drawIx = s.drawIx := rfl
@[simp] theorem offer_returned (a : Access) (s : State) : (s.offer a).returned = s.returned := rfl

/-! ### afterDraw -/

@[simp] theorem afterDraw_sck (s : State) : (s.afterDraw).sck = s.sck := by unfold afterDraw; split <;> rfl
@[simp] theorem afterDraw_phase (s : State) : (s.afterDraw).phase = s.phase := by unfold afterDraw; split <;> rfl
@[simp] theorem afterDraw_bitcnt (s : State) : (s.afterDraw).bitcnt = s.bitcnt := by unfold afterDraw; split <;> rfl
@[simp] theorem afterDraw_acc (s : State) : (s.afterDraw).acc = s.acc := by unfold afterDraw; split <;> rfl
@[simp] theorem afterDraw_n (s : State) : (s.afterDraw).n = s.n := by unfold afterDraw; split <;> rfl
@[simp] theorem afterDraw_rem (s : State) : (s.afterDraw).rem = s.rem := by unfold afterDraw; split <;> rfl
@[simp] theorem afterDraw_sum (s : State) : (s.afterDraw).sum = s.sum := by unfold afterDraw; split <;> rfl
@[simp] theorem afterDraw_wcnt (s : State) : (s.afterDraw).wcnt = s.wcnt := by unfold afterDraw; split <;> rfl
@[simp] theorem afterDraw_done (s : State) : (s.afterDraw).done = s.done := by unfold afterDraw; split <;> rfl
@[simp] theorem afterDraw_timeout (s : State) : (s.afterDraw).timeout = s.timeout := by unfold afterDraw; split <;> rfl
@[simp] theorem afterDraw_reject (s : State) : (s.afterDraw).reject = s.reject := by unfold afterDraw; split <;> rfl
@[simp] theorem afterDraw_result (s : State) : (s.afterDraw).result = s.result := by unfold afterDraw; split <;> rfl
@[simp] theorem afterDraw_raw (s : State) : (s.afterDraw).raw = s.raw := by unfold afterDraw; split <;> rfl
@[simp] theorem afterDraw_params (s : State) : (s.afterDraw).params = s.params := by unfold afterDraw; split <;> rfl
@[simp] theorem afterDraw_turns (s : State) : (s.afterDraw).turns = s.turns := by unfold afterDraw; split <;> rfl
@[simp] theorem afterDraw_turnIx (s : State) : (s.afterDraw).turnIx = s.turnIx := by unfold afterDraw; split <;> rfl
@[simp] theorem afterDraw_returned (s : State) : (s.afterDraw).returned = s.returned := by unfold afterDraw; split <;> rfl

/-! ### The draw -/

theorem dout_of_line {s : State} {d : Level} {rest : List Level} (h : s.line = d :: rest) : s.dout = d := by
  simp [dout, h]

theorem afterDraw_of_line {s : State} {d : Level} {rest : List Level} (h : s.line = d :: rest) :
    s.afterDraw = { s with line := rest } := by
  simp [afterDraw, h]

theorem dout_of_no_line {s : State} (h : s.line = []) : s.dout = Config.freeDout s.drawIx := by
  simp [dout, h]

theorem afterDraw_of_no_line {s : State} (h : s.line = []) : s.afterDraw = { s with drawIx := s.drawIx + 1 } := by
  simp [afterDraw, h]

/-- A draw hangs on the device alone. -/
theorem dout_congr {s s' : State} (hl : s'.line = s.line) (hk : s'.drawIx = s.drawIx) : s'.dout = s.dout := by
  unfold dout
  rw [hl, hk]

@[simp] theorem advance_dout (s : State) : s.advance.dout = s.dout := dout_congr (advance_line s) (advance_drawIx s)

theorem afterDraw_device_congr {s s' : State} (hl : s'.line = s.line) (hk : s'.drawIx = s.drawIx) :
    s'.afterDraw.line = s.afterDraw.line ∧ s'.afterDraw.drawIx = s.afterDraw.drawIx := by
  unfold afterDraw
  rw [hl]
  cases s.line <;> simp [hk]

end Sys2Proof.Machine.State
end

