-- ==== Sys2Proof/Laws/Ops.lean ====
section
/-! SUPPORT. What each shared operation can do, said once. -/

namespace Sys2Proof.Machine

/-- An engine step answers a next state exactly in its phase. -/
theorem inPhase_eq_next_iff {p : Phase} {s u t : State} : inPhase p s u = .next t ↔ s.phase = p ∧ u = t := by
  unfold inPhase
  split <;> simp_all

theorem inPhase_of_phase {p : Phase} {s u : State} (h : s.phase = p) : inPhase p s u = .next u :=
  inPhase_eq_next_iff.2 ⟨h, rfl⟩

/-- An engine step never refuses, and faults exactly out of its phase. -/
theorem inPhase_cases (p : Phase) (s u : State) :
    (s.phase = p ∧ inPhase p s u = .next u) ∨ (s.phase ≠ p ∧ inPhase p s u = .fault .stepNotEnabled) := by
  unfold inPhase
  split
  · exact .inl ⟨‹_›, rfl⟩
  · exact .inr ⟨‹_›, rfl⟩

/-- A legal command is refused as BUSY or accepted. -/
theorem startTransaction_cases (n : BitVec 8) (s : State) :
    (s.phase ≠ .idle ∧ s.startTransaction n = s.recordReject .busy) ∨
    (s.phase = .idle ∧ s.startTransaction n = s.accept n) := by
  unfold State.startTransaction
  split
  · exact .inl ⟨‹_›, rfl⟩
  · exact .inr ⟨by simpa using ‹¬ s.phase ≠ .idle›, rfl⟩

/-- The four things POLL can do (rule R66). -/
theorem pollWith_cases (d : Level) (s : State) :
    (d = false ∧ pollWith d s = { s with wcnt := 0, phase := .rise }) ∨
    (d = true ∧ s.params.readyTimeout = none ∧ pollWith d s = s) ∨
    (∃ k, d = true ∧ s.params.readyTimeout = some k ∧ k ≤ s.wcnt + 1 ∧ pollWith d s = s.timeOut) ∨
    (∃ k, d = true ∧ s.params.readyTimeout = some k ∧ s.wcnt + 1 < k ∧
      pollWith d s = { s with wcnt := s.wcnt + 1 }) := by
  unfold pollWith
  cases d with
  | false => exact .inl ⟨rfl, by simp⟩
  | true =>
    right
    cases hk : s.params.readyTimeout with
    | none => exact .inl ⟨rfl, rfl, by simp⟩
    | some k =>
      right
      by_cases hle : k ≤ s.wcnt + 1
      · exact .inl ⟨k, rfl, rfl, hle, by simp [hle]⟩
      · exact .inr ⟨k, rfl, rfl, by omega, by simp [hle]⟩

/-- POLL changes WCNT, TIMEOUT and PHASE at most. -/
theorem pollWith_frame (d : Level) (s : State) :
    (pollWith d s).sck = s.sck ∧ (pollWith d s).bitcnt = s.bitcnt ∧ (pollWith d s).acc = s.acc ∧
    (pollWith d s).n = s.n ∧ (pollWith d s).rem = s.rem ∧ (pollWith d s).sum = s.sum ∧
    (pollWith d s).done = s.done ∧ (pollWith d s).reject = s.reject ∧ (pollWith d s).result = s.result ∧
    (pollWith d s).raw = s.raw ∧ (pollWith d s).params = s.params ∧ (pollWith d s).turns = s.turns ∧
    (pollWith d s).turnIx = s.turnIx ∧
    (pollWith d s).line = s.line ∧ (pollWith d s).drawIx = s.drawIx ∧ (pollWith d s).returned = s.returned := by
  rcases pollWith_cases d s with ⟨_, h⟩ | ⟨_, _, h⟩ | ⟨k, _, _, _, h⟩ | ⟨k, _, _, _, h⟩ <;> rw [h] <;> simp

/-- The two things FINISH can do (rule R73). -/
theorem finishNext_cases (s : State) :
    (s.rem = 1 ∧ finishNext s =
      { finishRead s with result := trunc32 (floorDiv (nextSum s) s.n), done := true, phase := .idle }) ∨
    (s.rem ≠ 1 ∧ finishNext s = { finishRead s with phase := .wait }) := by
  have h : s.rem - 1 = 0 ↔ s.rem = 1 := by
    constructor <;> intro h <;> bv_omega
  unfold finishNext
  split
  · exact .inl ⟨h.1 ‹_›, rfl⟩
  · exact .inr ⟨fun hr => ‹¬ s.rem - 1 = 0› (h.2 hr), rfl⟩

/-- What FINISH leaves in the fields that do not depend on REM. -/
theorem finishNext_frame (s : State) :
    (finishNext s).sck = s.sck ∧ (finishNext s).bitcnt = 0 ∧ (finishNext s).acc = 0 ∧ (finishNext s).n = s.n ∧
    (finishNext s).rem = s.rem - 1 ∧ (finishNext s).sum = trunc32 (nextSum s) ∧ (finishNext s).wcnt = s.wcnt ∧
    (finishNext s).timeout = s.timeout ∧ (finishNext s).reject = s.reject ∧ (finishNext s).raw = s.acc ∧
    (finishNext s).params = s.params ∧ (finishNext s).turns = s.turns ∧
    (finishNext s).turnIx = s.turnIx ∧ (finishNext s).line = s.line ∧
    (finishNext s).drawIx = s.drawIx ∧ (finishNext s).returned = s.returned := by
  rcases finishNext_cases s with ⟨_, h⟩ | ⟨_, h⟩ <;> rw [h] <;> simp [finishRead]

@[simp] theorem nextSum_advance (s : State) : nextSum s.advance = nextSum s := by simp [nextSum]

/-- The two things FALL can do (rule R70). -/
theorem fallNext_cases (s : State) :
    (s.bitcnt + 1 = 24 ∧ fallNext s = { s with sck := false, bitcnt := s.bitcnt + 1, phase := .xrise }) ∨
    (s.bitcnt + 1 ≠ 24 ∧ fallNext s = { s with sck := false, bitcnt := s.bitcnt + 1, phase := .rise }) := by
  have hbits : BitVec.ofNat 5 Config.dataBits = 24 := rfl
  unfold fallNext
  rw [hbits]
  by_cases h : s.bitcnt + 1 = 24
  · exact .inl ⟨h, by rw [if_pos h]⟩
  · exact .inr ⟨h, by rw [if_neg h]⟩

/-- A host operation always answers a next state. -/
theorem exec_host_next {i : Instr} (h : i.isHost = true) (s : State) : ∃ t, exec i s = .next t := by
  cases i <;> first | exact ⟨_, rfl⟩ | simp [Instr.isHost] at h

/-- Everything a host operation can do: return a word (with a draw, for STATUS), nothing, accept, or refuse by its code. -/
theorem exec_host_cases {i : Instr} {s t : State} (hi : i.isHost = true) (h : exec i s = .next t) :
    (i = .isReady ∧ t = s.afterDraw.returnWord (s.statusWord s.dout)) ∨
    ((i = .rdResult ∨ i = .rdRaw ∨ i = .rdCmd) ∧ ∃ w, t = s.returnWord w) ∨
    ((∃ reg data, i = .wrRo reg data) ∧ t = s) ∨
    (s.phase = .idle ∧ ∃ n, n ≠ 0 ∧ (i = .readRaw ∧ n = 1 ∨ i = .readAvg n) ∧ t = s.accept n) ∨
    (s.phase ≠ .idle ∧ (i = .readRaw ∨ ∃ n, n ≠ 0 ∧ i = .readAvg n) ∧ t = s.recordReject .busy) ∨
    ((i = .cmdIllegal00 ∨ i = .cmdIllegal11 ∨ i = .cmdAvgZero ∨ i = .readAvg 0) ∧ t = s.recordReject .illegal) := by
  cases i with
  | isReady => cases h; exact .inl ⟨rfl, rfl⟩
  | rdResult => cases h; exact .inr (.inl ⟨.inl rfl, _, rfl⟩)
  | rdRaw => cases h; exact .inr (.inl ⟨.inr (.inl rfl), _, rfl⟩)
  | rdCmd => cases h; exact .inr (.inl ⟨.inr (.inr rfl), _, rfl⟩)
  | wrRo reg data => cases h; exact .inr (.inr (.inl ⟨⟨reg, data, rfl⟩, rfl⟩))
  | readRaw =>
    cases h
    rcases startTransaction_cases readRawCount s with ⟨hp, he⟩ | ⟨hp, he⟩
    · exact .inr (.inr (.inr (.inr (.inl ⟨hp, .inl rfl, he⟩))))
    · exact .inr (.inr (.inr (.inl ⟨hp, readRawCount, by decide, .inl ⟨rfl, rfl⟩, he⟩)))
  | readAvg n =>
    simp only [exec, execReadAvg] at h
    split at h
    next hn => cases h; subst hn; exact .inr (.inr (.inr (.inr (.inr ⟨.inr (.inr (.inr rfl)), rfl⟩))))
    next hn =>
      cases h
      rcases startTransaction_cases n s with ⟨hp, he⟩ | ⟨hp, he⟩
      · exact .inr (.inr (.inr (.inr (.inl ⟨hp, .inr ⟨n, hn, rfl⟩, he⟩))))
      · exact .inr (.inr (.inr (.inl ⟨hp, n, hn, .inr rfl, he⟩)))
  | cmdAvgZero => cases h; exact .inr (.inr (.inr (.inr (.inr ⟨.inr (.inr (.inl rfl)), rfl⟩))))
  | cmdIllegal00 => cases h; exact .inr (.inr (.inr (.inr (.inr ⟨.inl rfl, rfl⟩))))
  | cmdIllegal11 => cases h; exact .inr (.inr (.inr (.inr (.inr ⟨.inr (.inl rfl), rfl⟩))))
  | _ => simp [Instr.isHost] at hi

/-- The state an engine step leads to. -/
def engineNext : Instr → State → State
  | .poll, s => pollWith s.dout s.afterDraw
  | .rise, s => (s.setSck true).setPhase .sample
  | .sample, s => sampleWith s.dout s.afterDraw
  | .fall, s => fallNext s
  | .xrise, s => (s.setSck true).setPhase .xfall
  | .xfall, s => (s.setSck false).setPhase .finish
  | .finish, s => finishNext s
  | _, s => s

/-- An engine step answers the state it leads to when PHASE selects it, and a fault otherwise. -/
theorem exec_engine_cases {i : Instr} (h : i.isHost = false) (s : State) :
    (decodePhase s.phase = some i ∧ exec i s = .next (engineNext i s)) ∨
    (decodePhase s.phase ≠ some i ∧ exec i s = .fault .stepNotEnabled) := by
  cases i <;> simp only [Instr.isHost, Bool.true_eq_false] at h <;>
    cases hp : s.phase <;>
    simp [exec, execPoll, execRise, execSample, execFall, execXrise, execXfall, execFinish, inPhase, hp, decodePhase,
      engineNext]

end Sys2Proof.Machine
end

