-- ==== Sys2Proof/Laws/PerInstr.lean ====
section
/-! SUPPORT. Statements made for every operation, one lemma per constructor of Instr. -/

namespace Sys2Proof.Laws

/-- The encoder answers a supported access for a host operation and a PHASE value other than IDLE for an engine step. -/
def EncodesInForm.Statement (i : Instr) : Prop :=
  ∀ base, match encode base i with
    | .access a => i.isHost = true ∧ ∃ reg, a.resolve base = .ok reg
    | .phase p => i.isHost = false ∧ p ≠ .idle

namespace EncodesInForm

theorem isReady : Statement .isReady := fun base => ⟨rfl, _, Access.resolve_readAccess base .status⟩
theorem rdResult : Statement .rdResult := fun base => ⟨rfl, _, Access.resolve_readAccess base .result⟩
theorem rdRaw : Statement .rdRaw := fun base => ⟨rfl, _, Access.resolve_readAccess base .raw⟩
theorem rdCmd : Statement .rdCmd := fun base => ⟨rfl, _, Access.resolve_readAccess base .cmd⟩
theorem readRaw : Statement .readRaw := fun base => ⟨rfl, _, Access.resolve_writeAccess base .cmd _⟩
theorem readAvg (n : BitVec 8) : Statement (.readAvg n) := fun base => ⟨rfl, _, Access.resolve_writeAccess base .cmd _⟩
theorem cmdAvgZero : Statement .cmdAvgZero := fun base => ⟨rfl, _, Access.resolve_writeAccess base .cmd _⟩
theorem cmdIllegal00 : Statement .cmdIllegal00 := fun base => ⟨rfl, _, Access.resolve_writeAccess base .cmd _⟩
theorem cmdIllegal11 : Statement .cmdIllegal11 := fun base => ⟨rfl, _, Access.resolve_writeAccess base .cmd _⟩
theorem wrRo (reg : RoReg) (data : Word) : Statement (.wrRo reg data) :=
  fun base => ⟨rfl, _, Access.resolve_writeAccess base reg.toReg data⟩
theorem poll : Statement .poll := fun _ => ⟨rfl, nofun⟩
theorem rise : Statement .rise := fun _ => ⟨rfl, nofun⟩
theorem sample : Statement .sample := fun _ => ⟨rfl, nofun⟩
theorem fall : Statement .fall := fun _ => ⟨rfl, nofun⟩
theorem xrise : Statement .xrise := fun _ => ⟨rfl, nofun⟩
theorem xfall : Statement .xfall := fun _ => ⟨rfl, nofun⟩
theorem finish : Statement .finish := fun _ => ⟨rfl, nofun⟩

end EncodesInForm

end Sys2Proof.Laws
end

