-- ==== Sys2Proof/Laws/Step.lean ====
section
/-! SUPPORT. Which step comes next and what one step can do, said once. -/

namespace Sys2Proof.Machine

/-- The next step is the engine's, of the operation PHASE names; or a bus access; or a reset. -/
theorem schedule_cases (s : State) (ts : List Turn) :
    (∃ i, decodePhase s.phase = some i ∧ (s.schedule ts).1 = .run i) ∨
    (∃ a, (s.schedule ts).1 = selectAccess s.params.base a) ∨ (s.schedule ts).1 = .reset := by
  induction ts with
  | nil =>
    cases hp : decodePhase s.phase with
    | some i => exact .inl ⟨i, rfl, by simp [State.schedule, hp]⟩
    | none =>
      right
      cases ho : Config.freeOutside s.turnIx with
      | some a => exact .inl ⟨a, by simp [State.schedule, hp, ho, selectOutside]⟩
      | none => exact .inr (by simp [State.schedule, hp, ho, selectOutside])
  | cons turn rest ih =>
    cases turn with
    | engine =>
      cases hp : decodePhase s.phase with
      | some i => exact .inl ⟨i, rfl, by simp [State.schedule, hp]⟩
      | none => simpa [State.schedule, hp] using ih
    | host a => exact .inr (.inl ⟨a, rfl⟩)
    | reset => exact .inr (.inr rfl)

theorem select_cases (s : State) :
    (∃ i, decodePhase s.phase = some i ∧ s.select = .run i) ∨
    (∃ a, s.select = selectAccess s.params.base a) ∨ s.select = .reset :=
  schedule_cases s s.turns

theorem selectAccess_eq_run_iff (base : Nat) (a : Access) (i : Instr) :
    selectAccess base a = .run i ↔ decodeAccess base a = .ok i := by
  unfold selectAccess
  cases decodeAccess base a <;> simp

/-- A decoded transaction is a host operation. -/
theorem decodeTransaction_isHost (dir : Dir) (reg : Reg) (w : Word) : (decodeTransaction dir reg w).isHost = true := by
  cases dir <;> cases reg <;> try rfl
  rcases decodeCommand_cases w with h | h | h | h | h <;> simp [decodeTransaction, h, Instr.isHost]

theorem decodePhase_isHost {p : Phase} {i : Instr} (h : decodePhase p = some i) : i.isHost = false := by
  cases p <;> simp [decodePhase] at h <;> subst h <;> rfl

/-- A host operation is selected by a bus access only, and an engine step in the phase that names it only. -/
theorem select_run_cases {s : State} {i : Instr} (h : s.select = .run i) :
    (i.isHost = true ∧ ∃ a, s.select = selectAccess s.params.base a ∧ decodeAccess s.params.base a = .ok i) ∨
    (i.isHost = false ∧ decodePhase s.phase = some i) := by
  rcases select_cases s with ⟨j, hp, hj⟩ | ⟨a, ha⟩ | hr
  · rw [h] at hj
    cases hj
    exact .inr ⟨decodePhase_isHost hp, hp⟩
  · have hd := (selectAccess_eq_run_iff ..).1 (ha.symm.trans h)
    obtain ⟨reg, _, _, rfl⟩ := (decodeAccess_eq_ok_iff ..).1 hd
    exact .inl ⟨decodeTransaction_isHost .., a, ha, hd⟩
  · rw [h] at hr
    cases hr

/-- Everything one step can do when it answers a next state. -/
theorem step_next_cases {s t : State} (h : step s = .next t) :
    (∃ i, s.select = .run i ∧ i.isHost = true ∧ exec i s.advance = .next t) ∨
    (∃ i, s.select = .run i ∧ i.isHost = false ∧ decodePhase s.phase = some i ∧ t = engineNext i s.advance) ∨
    (s.select = .reset ∧ t = s.advance.applyReset) := by
  unfold step at h
  split at h
  next i hi =>
    rcases select_run_cases hi with ⟨hh, _⟩ | ⟨hh, hp⟩
    · exact .inl ⟨i, hi, hh, h⟩
    · rcases exec_engine_cases hh s.advance with ⟨_, he⟩ | ⟨hn, _⟩
      · rw [he] at h
        cases h
        exact .inr (.inl ⟨i, hi, hh, hp, rfl⟩)
      · exact absurd (by rwa [State.advance_phase]) hn
  next hr => cases h; exact .inr (.inr ⟨hr, rfl⟩)
  · cases h

/-- The phase that selects an engine step. -/
theorem phase_of_decodePhase {p : Phase} {i : Instr} (h : decodePhase p = some i) :
    (i = .poll ∧ p = .wait) ∨ (i = .rise ∧ p = .rise) ∨ (i = .sample ∧ p = .sample) ∨ (i = .fall ∧ p = .fall) ∨
    (i = .xrise ∧ p = .xrise) ∨ (i = .xfall ∧ p = .xfall) ∨ (i = .finish ∧ p = .finish) := by
  cases p <;> simp [decodePhase] at h <;> subst h <;> simp

theorem step_of_select_run {s : State} {i : Instr} (h : s.select = .run i) : step s = exec i s.advance := by
  unfold step
  rw [h]

/-- The access at the head of the turns runs as its operation. -/
theorem step_of_access {s : State} {a : Access} {rest : List Turn} {i : Instr} (ht : s.turns = .host a :: rest)
    (hd : decodeAccess s.params.base a = .ok i) : step s = exec i { s with turns := rest } := by
  simp [step, State.select, State.advance, ht, State.schedule, selectAccess, hd]

/-- An unsupported access at the head of the turns is refused. -/
theorem step_of_unsupported {s : State} {a : Access} {rest : List Turn} {e : AccessError} (ht : s.turns = .host a :: rest)
    (hd : decodeAccess s.params.base a = .error e) : step s = .refused (.unsupportedAccess e) := by
  simp [step, State.select, ht, State.schedule, selectAccess, hd]

/-- A write of a register of the window. -/
theorem step_of_write {s : State} {reg : Reg} {w : Word} {rest : List Turn}
    (ht : s.turns = .host (writeAccess s.params.base reg w) :: rest) :
    step s = exec (decodeTransaction .write reg w) { s with turns := rest } :=
  step_of_access ht (decodeAccess_writeAccess ..)

/-- A reset at the head of the turns. -/
theorem step_of_reset {s : State} {rest : List Turn} (ht : s.turns = .reset :: rest) :
    step s = .next ({ s with turns := rest } : State).applyReset := by
  simp [step, State.select, State.advance, ht, State.schedule]

/-- The engine's turn, while it has a step. -/
theorem step_of_engine {s : State} {rest : List Turn} {i : Instr} (ht : s.turns = .engine :: rest)
    (hp : decodePhase s.phase = some i) : step s = exec i { s with turns := rest } := by
  simp [step, State.select, State.advance, ht, State.schedule, hp]

/-- The engine's turn, while it has a step, leads where the step's meaning says. -/
theorem step_engine_next {s t : State} {rest : List Turn} {i : Instr} (ht : s.turns = .engine :: rest)
    (hp : decodePhase s.phase = some i) (he : exec i { s with turns := rest } = .next t) : step s = .next t :=
  (step_of_engine ht hp).trans he

/-- With no turn listed the engine moves, while it has a step. -/
theorem step_of_no_turns {s : State} {i : Instr} (ht : s.turns = []) (hp : decodePhase s.phase = some i) :
    step s = exec i { s with turns := Config.freeTurns s.turnIx, turnIx := s.turnIx + 1 } := by
  simp [step, State.select, State.advance, ht, State.schedule, hp]

/-- A step is what its schedule says. -/
theorem step_congr_of_schedule {s u : State} (h : s.schedule s.turns = u.schedule u.turns) : step s = step u := by
  simp [step, State.select, State.advance, h]

/-- While IDLE an engine's turn is passed over. -/
theorem step_of_engine_idle {s : State} {rest : List Turn} (ht : s.turns = .engine :: rest) (hp : s.phase = .idle) :
    step s = step { s with turns := rest } := by
  apply step_congr_of_schedule
  have hs : s.schedule (.engine :: rest) = s.schedule rest := by simp [State.schedule, hp, decodePhase]
  rw [ht, hs]
  exact (State.schedule_of_turns s rest rest).symm

/-- With no turn listed while IDLE something comes from outside. -/
theorem step_of_no_turns_idle {s : State} (ht : s.turns = []) (hp : s.phase = .idle) :
    step s = step { s with
      turns := .outside (Config.freeOutside s.turnIx) :: Config.freeTurns s.turnIx
      turnIx := s.turnIx + 1 } := by
  apply step_congr_of_schedule
  cases ho : Config.freeOutside s.turnIx <;>
    simp [ht, State.schedule, hp, decodePhase, ho, selectOutside, Turn.outside]

/-- Every next state of a step, operation by operation: the list every statement about steps splits on. -/
theorem step_next_flat {s t : State} (h : step s = .next t) :
    (s.select = .run .isReady ∧ t = s.advance.afterDraw.returnWord (s.advance.statusWord s.dout)) ∨
    (∃ i w, s.select = .run i ∧ (i = .rdResult ∨ i = .rdRaw ∨ i = .rdCmd) ∧ t = s.advance.returnWord w) ∨
    (∃ reg data, s.select = .run (.wrRo reg data) ∧ t = s.advance) ∨
    (∃ i n, s.phase = .idle ∧ n ≠ 0 ∧ s.select = .run i ∧ (i = .readRaw ∧ n = 1 ∨ i = .readAvg n) ∧
      t = s.advance.accept n) ∨
    (∃ i, s.phase ≠ .idle ∧ s.select = .run i ∧ (i = .readRaw ∨ ∃ n, n ≠ 0 ∧ i = .readAvg n) ∧
      t = s.advance.recordReject .busy) ∨
    (∃ i, s.select = .run i ∧ (i = .cmdIllegal00 ∨ i = .cmdIllegal11 ∨ i = .cmdAvgZero ∨ i = .readAvg 0) ∧
      t = s.advance.recordReject .illegal) ∨
    (s.select = .run .poll ∧ s.phase = .wait ∧ t = pollWith s.dout s.advance.afterDraw) ∨
    (s.select = .run .rise ∧ s.phase = .rise ∧ t = (s.advance.setSck true).setPhase .sample) ∨
    (s.select = .run .sample ∧ s.phase = .sample ∧ t = sampleWith s.dout s.advance.afterDraw) ∨
    (s.select = .run .fall ∧ s.phase = .fall ∧ t = fallNext s.advance) ∨
    (s.select = .run .xrise ∧ s.phase = .xrise ∧ t = (s.advance.setSck true).setPhase .xfall) ∨
    (s.select = .run .xfall ∧ s.phase = .xfall ∧ t = (s.advance.setSck false).setPhase .finish) ∨
    (s.select = .run .finish ∧ s.phase = .finish ∧ t = finishNext s.advance) ∨
    (s.select = .reset ∧ t = s.advance.applyReset) := by
  rcases step_next_cases h with ⟨i, hs, hh, he⟩ | ⟨i, hs, hh, hp, rfl⟩ | ⟨hs, rfl⟩
  · rcases exec_host_cases hh he with
      ⟨rfl, rfl⟩ | ⟨hi, w, rfl⟩ | ⟨⟨reg, data, rfl⟩, rfl⟩ | ⟨hp, n, hn, hi, rfl⟩ | ⟨hp, hi, rfl⟩ | ⟨hi, rfl⟩
    · exact .inl ⟨hs, by rw [State.advance_dout]⟩
    · exact .inr (.inl ⟨i, w, hs, hi, rfl⟩)
    · exact .inr (.inr (.inl ⟨reg, data, hs, rfl⟩))
    · exact .inr (.inr (.inr (.inl ⟨i, n, by simpa using hp, hn, hs, hi, rfl⟩)))
    · exact .inr (.inr (.inr (.inr (.inl ⟨i, by simpa using hp, hs, hi, rfl⟩))))
    · exact .inr (.inr (.inr (.inr (.inr (.inl ⟨i, hs, hi, rfl⟩)))))
  · iterate 6 right
    rcases phase_of_decodePhase hp with
      ⟨rfl, hq⟩ | ⟨rfl, hq⟩ | ⟨rfl, hq⟩ | ⟨rfl, hq⟩ | ⟨rfl, hq⟩ | ⟨rfl, hq⟩ | ⟨rfl, hq⟩ <;>
      clear hp <;> simp [hs, hq, engineNext]
  · iterate 13 right
    exact ⟨hs, rfl⟩

end Sys2Proof.Machine
end

