-- ==== Sys2Proof/Tests/Slice0.lean ====
section
/-! SUPPORT. The model's own tests: decoding of words written out from 30_encoding.md, single steps from the tables V1 to V4
of 95_test_vectors.md, the smoke test of WellFormed, and for each obligation with hypotheses a witness that meets them. -/

namespace Sys2Proof.Tests

open Sys2Proof.Machine Sys2Proof.Safety

/-! ## States to test on -/

/-- A block in phase `p` with N and REM as given, and everything else as reset leaves it. -/
def block (p : Phase) (n rem : BitVec 8) : State := { State.reset with phase := p, n := n, rem := rem }

/-- Idle after a completed READ_RAW of −1. -/
def idleDone : State := { block .idle 1 0 with done := true, result := 0xFFFFFFFF, raw := 0xFFFFFF, sum := 0xFFFFFFFF }

/-- Waiting, with the levels `l` to come and the ready timeout `k`. -/
def waiting (k : Option Nat) (l : List Level) : State :=
  { block .wait 1 1 with params := { Config.defaultParams with readyTimeout := k }, line := l }

/-- Before the last data sample of a read. -/
def lastSample : State := { block .sample 1 1 with sck := true, bitcnt := 23, acc := 0x3FFFFF, line := [true] }

/-- Before the `b + 1`-th falling edge of a read whose bits so far are 0. -/
def falling (b : BitVec 5) : State := { block .fall 1 1 with sck := true, bitcnt := b }

/-- Before the extra pulse. -/
def beforeExtra : State := { block .xrise 1 1 with bitcnt := 24, acc := 0x800000 }

/-- In the extra pulse. -/
def inExtra : State := { beforeExtra with phase := .xfall, sck := true }

/-- Before a FINISH with the given N, REM, SUM and ACC. -/
def finishing (n rem : BitVec 8) (sum : Word) (acc : Raw24) : State :=
  { block .finish n rem with bitcnt := 24, sum := sum, acc := acc }

/-- `s` with the turns `ts` to come. -/
def withTurns (s : State) (ts : List Turn) : State := { s with turns := ts }

/-- A write of `w` to CMD. -/
def wrCmd (w : Word) : Turn := .host (writeAccess 0 .cmd w)

/-- One field of the state an outcome leads to. -/
def field {α : Type} (o : Host.Outcome State Fault Refusal) (f : State → α) : Option α := (nextState? o).map f

/-! ## Decoding (rules R47 to R57, table V4) -/

theorem test_decode_reads :
    decodeAccess 0x40000000 ⟨.read, 0x40000004, 4, 0⟩ = .ok .isReady ∧
    decodeAccess 0x40000000 ⟨.read, 0x40000008, 4, 0⟩ = .ok .rdResult ∧
    decodeAccess 0x40000000 ⟨.read, 0x4000000C, 4, 0⟩ = .ok .rdRaw ∧
    decodeAccess 0x40000000 ⟨.read, 0x40000000, 4, 0⟩ = .ok .rdCmd := by decide

theorem test_decode_read_raw :
    decodeTableWord 32 0b00000000000000000000000000000001 = some .readRaw ∧
    decodeTableWord 32 0x0000FF01 = some .readRaw ∧
    decodeTableWord 32 0xFFFF0001 = some .readRaw ∧
    decodeTableWord 32 0x000001FD = some .readRaw := by decide

theorem test_decode_read_avg :
    decodeTableWord 32 0x000001FE = some (.readAvg 1) ∧
    decodeTableWord 32 0b00000000000000000000101000000010 = some (.readAvg 10) ∧
    decodeTableWord 32 0x0000FF02 = some (.readAvg 255) := by decide

theorem test_decode_avg_zero :
    decodeTableWord 32 0b00000000000000000000000000000010 = some .cmdAvgZero ∧
    decodeTableWord 32 0xFFFF00FE = some .cmdAvgZero := by decide

theorem test_decode_illegal :
    decodeTableWord 32 0x00000000 = some .cmdIllegal00 ∧
    decodeTableWord 32 0xFFFFFFFC = some .cmdIllegal00 ∧
    decodeTableWord 32 0x00000003 = some .cmdIllegal11 ∧
    decodeTableWord 32 0xFFFFFFFF = some .cmdIllegal11 := by decide

theorem test_decode_wr_ro :
    decodeAccess 0x40000000 ⟨.write, 0x40000004, 4, 0xFFFFFFFF⟩ = .ok (.wrRo .status 0xFFFFFFFF) ∧
    decodeAccess 0x40000000 ⟨.write, 0x40000008, 4, 0x00001234⟩ = .ok (.wrRo .result 0x00001234) ∧
    decodeAccess 0x40000000 ⟨.write, 0x4000000C, 4, 0x00000001⟩ = .ok (.wrRo .raw 0x00000001) := by decide

theorem test_decode_engine :
    [Phase.wait, .rise, .sample, .fall, .xrise, .xfall, .finish].map decodePhase =
      [some .poll, some .rise, some .sample, some .fall, some .xrise, some .xfall, some .finish] ∧
    decodePhase .idle = none := by decide

theorem test_decode_refuses :
    decodeAccess 0x40000000 ⟨.read, 0x40000004, 2, 0⟩ = .error .width ∧
    decodeAccess 0x40000000 ⟨.read, 0x40000000, 8, 0⟩ = .error .width ∧
    decodeAccess 0x40000000 ⟨.write, 0x40000002, 4, 1⟩ = .error .misaligned ∧
    decodeAccess 0x40000000 ⟨.write, 0x40000010, 4, 1⟩ = .error .outside ∧
    decodeAccess 0x40000000 ⟨.write, 0x3FFFFFFC, 4, 1⟩ = .error .outside ∧
    decodeTableWord 40 1 = none := by decide

/-- The words of R58's syntax, by hand: `(10 << 8) OR 2` and `(255 << 8) OR 2`. -/
theorem test_encode_read_avg : readAvgWord 10 = 0x00000A02 ∧ readAvgWord 255 = 0x0000FF02 := by decide

/-! ## WellFormed -/

theorem test_wellFormed_refuses :
    (Instr.readAvg 0).wellFormed = false ∧
    Config.Params.wellFormed { Config.defaultParams with readyTimeout := some 0 } = false ∧
    Config.Params.wellFormed { Config.defaultParams with timing := ⟨0, 1, 1, 1, 1⟩ } = false ∧
    Config.Params.wellFormed { Config.defaultParams with timing := ⟨1, 0, 1, 1, 1⟩ } = false ∧
    Config.Params.wellFormed { Config.defaultParams with timing := ⟨1, 1, 0, 1, 1⟩ } = false ∧
    Config.Params.wellFormed { Config.defaultParams with timing := ⟨1, 1, 1, 0, 1⟩ } = false ∧
    Config.Params.wellFormed { Config.defaultParams with timing := ⟨1, 1, 1, 1, 0⟩ } = false := by decide

theorem test_wellFormed_accepts :
    (Instr.readAvg 1).wellFormed = true ∧ (Instr.readAvg 255).wellFormed = true ∧
    Config.Params.wellFormed { Config.defaultParams with readyTimeout := some 1 } = true := by decide

/-! ## Arithmetic (tables V1 and V2) -/

theorem test_decode24 :
    [0x000000, 0x000001, 0x123456, 0x400000, 0x7FFFFF, 0x800000, 0x800001, 0xABCDEF, 0xC00000, 0xFFFFFE, 0xFFFFFF,
      0x001BBD].map decode24 =
      [0, 1, 1193046, 4194304, 8388607, -8388608, -8388607, -5517841, -4194304, -2, -1, 7101] := by decide

theorem test_floor_div :
    floorDiv (-5) 1 = -5 ∧ floorDiv (-7) 2 = -4 ∧ floorDiv 7 2 = 3 ∧ floorDiv (-1) 3 = -1 ∧ floorDiv (-2) 3 = -1 ∧
    floorDiv 8388606 3 = 2796202 ∧ floorDiv (-11) 10 = -2 ∧ floorDiv (-10) 10 = -1 ∧
    floorDiv 2139094785 255 = 8388607 ∧ floorDiv (-2139095040) 255 = -8388608 := by decide

/-! ## Engine steps (table V3) -/

theorem test_poll_not_ready :
    field (exec .poll (waiting none [true])) (·.phase) = some .wait ∧
    field (exec .poll { waiting (some 3) [true] with wcnt := 1 }) (fun t => (t.phase, t.wcnt)) = some (.wait, 2) ∧
    field (exec .poll { waiting (some 3) [false] with wcnt := 2 }) (fun t => (t.phase, t.wcnt, t.timeout)) =
      some (.rise, 0, false) := by decide

theorem test_poll_timeout :
    field (exec .poll { waiting (some 3) [true] with wcnt := 2 }) (fun t => (t.phase, t.wcnt, t.timeout, t.done)) =
      some (.idle, 0, true, false) ∧
    field (exec .poll (waiting (some 1) [true])) (fun t => (t.phase, t.timeout)) = some (.idle, true) := by decide

theorem test_rise :
    field (exec .rise { block .rise 1 1 with bitcnt := 5 }) (fun t => (t.sck, t.phase, t.bitcnt)) =
      some (true, .sample, 5) := by decide

theorem test_sample_shifts_in_at_bit_0 :
    field (exec .sample { block .sample 1 1 with sck := true, bitcnt := 3, acc := 0x000005, line := [true] })
      (fun t => (t.acc, t.phase, t.line)) = some (0x00000B, .fall, []) := by decide

theorem test_sample_last_bit :
    field (exec .sample { lastSample with acc := 0x7FFFFF }) (·.acc) = some 0xFFFFFF ∧
    field (exec .sample { lastSample with line := [false] }) (·.acc) = some 0x7FFFFE := by decide

theorem test_fall :
    field (exec .fall (falling 0)) (fun t => (t.sck, t.bitcnt, t.phase)) = some (false, 1, .rise) ∧
    field (exec .fall (falling 23)) (fun t => (t.sck, t.bitcnt, t.phase)) = some (false, 24, .xrise) := by decide

theorem test_xrise : field (exec .xrise beforeExtra) (fun t => (t.sck, t.phase)) = some (true, .xfall) := by decide

theorem test_xfall : field (exec .xfall inExtra) (fun t => (t.sck, t.phase)) = some (false, .finish) := by decide

theorem test_finish_completes :
    field (exec .finish (finishing 1 1 0 0x800000)) (fun t => (t.raw, t.sum.toInt, t.rem, t.result.toInt, t.done)) =
      some (0x800000, -8388608, 0, -8388608, true) ∧
    field (exec .finish (finishing 2 1 (BitVec.ofInt 32 (-3)) 0xFFFFFC))
      (fun t => (t.sum.toInt, t.result.toInt, t.done, t.phase)) = some (-7, -4, true, .idle) := by decide

theorem test_finish_continues :
    field (exec .finish (finishing 3 2 5 0x000002))
      (fun t => (t.raw, t.sum, t.rem, t.phase, t.result, t.done)) = some (0x000002, 7, 1, .wait, 0, false) := by decide

/-! ## Host operations (table V4) -/

theorem test_is_ready_after_reset :
    field (exec .isReady { State.reset with line := [true] }) (·.returned) = some [0x00000000] ∧
    field (exec .isReady { State.reset with line := [false] }) (·.returned) = some [0x00000002] := by decide

theorem test_is_ready_fields :
    field (exec .isReady lastSample) (·.returned) = some [0x00000101] ∧
    field (exec .isReady { waiting none [false] with reject := .busy }) (·.returned) = some [0x00000023] ∧
    field (exec .isReady { block .idle 1 1 with timeout := true, line := [true] }) (·.returned) = some [0x00000008] ∧
    field (exec .isReady { idleDone with line := [false] }) (·.returned) = some [0x00000006] := by decide

theorem test_rd_result :
    field (exec .rdResult { State.reset with result := BitVec.ofInt 32 (-5517841) }) (·.returned) =
      some [0xFFABCDEF] := by decide

theorem test_rd_raw :
    field (exec .rdRaw { State.reset with raw := 0xABCDEF }) (·.returned) = some [0x00ABCDEF] := by decide

theorem test_rd_cmd : field (exec .rdCmd lastSample) (·.returned) = some [0x00000000] := by decide

theorem test_read_raw_accepted :
    field (exec .readRaw idleDone) (fun t => (t.n, t.rem, t.phase, t.done, t.result)) =
      some (1, 1, .wait, false, 0xFFFFFFFF) := by decide

theorem test_read_raw_busy :
    exec .readRaw lastSample = .next { lastSample with reject := .busy } := rfl

theorem test_read_avg_accepted :
    field (exec (.readAvg 10) State.reset) (fun t => (t.n, t.rem, t.phase)) = some (10, 10, .wait) ∧
    field (exec (.readAvg 255) State.reset) (fun t => (t.n, t.rem, t.phase)) = some (255, 255, .wait) := by decide

theorem test_avg_zero_keeps_done :
    field (exec .cmdAvgZero idleDone) (fun t => (t.reject, t.done, t.phase)) = some (.illegal, true, .idle) := by decide

theorem test_illegal_00 :
    field (exec .cmdIllegal00 State.reset) (fun t => (t.reject, t.phase)) = some (.illegal, .idle) := by decide

theorem test_illegal_11_before_busy :
    field (exec .cmdIllegal11 lastSample) (fun t => (t.reject, t.phase)) = some (.illegal, .sample) := by decide

theorem test_wr_ro :
    exec (.wrRo .result 0x00001234) { State.reset with result := 7 } = .next { State.reset with result := 7 } := rfl

/-! ## Steps -/

theorem test_step_refuses :
    step (withTurns State.reset [.host ⟨.read, 0x04, 2, 0⟩]) = .refused (.unsupportedAccess .width) ∧
    step (withTurns State.reset [.host ⟨.write, 0x02, 4, 1⟩]) = .refused (.unsupportedAccess .misaligned) := ⟨rfl, rfl⟩

theorem test_step_reset_in_fall :
    field (step (withTurns (falling 3) [.reset])) (fun t => (t.sck, t.phase, t.bitcnt, t.rem)) =
      some (false, .idle, 0, 0) := by decide

theorem test_fetch_word_after_reset :
    field (step (State.reset.withFetchWord 32 0x00000A02)) (fun t => (t.n, t.phase)) = some (10, .wait) := by decide

/-! ## States that meet the invariant -/

theorem idleDone_inv : Inv idleDone := by constructor <;> decide

theorem waiting_inv (l : List Level) : Inv (waiting none l) :=
  have h : Inv (waiting none []) := by constructor <;> decide
  ⟨h.sck_high_iff, h.cleared, h.before_sample, h.after_sample, h.transferred, h.in_flight, h.done_excludes_timeout,
    h.result_range, h.reject_code, h.rem_le_n, h.sum_range, h.no_timeout, h.wait_count⟩

theorem lastSample_inv : Inv lastSample := by constructor <;> decide

theorem falling_inv : Inv (falling 23) := by constructor <;> decide

theorem beforeExtra_inv : Inv beforeExtra := by constructor <;> decide

theorem finishing_last_inv : Inv (finishing 1 1 0 0x800000) := by constructor <;> decide

theorem finishing_more_inv : Inv (finishing 3 2 5 0x000002) := by constructor <;> decide

/-! ## Witnesses: the hypotheses of each obligation, met together -/

theorem witness_DecodeOfEncodeIsIdentity :
    (Instr.readAvg 1).wellFormed = true ∧ (Instr.readAvg 255).wellFormed = true ∧
    (Instr.wrRo .raw 0xFFFFFFFF).wellFormed = true ∧ Instr.finish.wellFormed = true := by decide

theorem witness_EncodeOfDecodeKeepsSelector :
    decode 0 (.phase .wait) = .ok .poll ∧
    decode 0 (.access ⟨.write, 0, 4, 0x000001FE⟩) = .ok (.readAvg 1) ∧
    decode 0 (.access ⟨.write, 12, 4, 0x000001FE⟩) = .ok (.wrRo .raw 0x000001FE) := by decide

theorem witness_IllegalCommandsExactly :
    (withTurns State.reset [wrCmd 0x00000002]).turns = .host (writeAccess 0 .cmd 0x00000002) :: [] ∧
    (opField 0x00000002 = 0b10#2 ∧ nField 0x00000002 = 0) ∧ opField 0xFFFFFFFF = 0b11#2 ∧ opField 0xFFFFFFFC = 0b00#2 ∧
    ¬ (opField 0x00000102 = 0b00#2 ∨ opField 0x00000102 = 0b11#2 ∨
      (opField 0x00000102 = 0b10#2 ∧ nField 0x00000102 = 0)) := by decide

theorem witness_OnlyAlignedWordAccessesRun :
    (withTurns State.reset [.host ⟨.read, 0x0C, 4, 0⟩]).turns = .host ⟨.read, 0x0C, 4, 0⟩ :: [] ∧
    ((4 : Nat) = 4 ∧ ∃ off, (off = 0x00 ∨ off = 0x04 ∨ off = 0x08 ∨ off = 0x0C) ∧ 0x0C = State.reset.params.base + off) ∧
    ¬ (∃ off, (off = 0x00 ∨ off = 0x04 ∨ off = 0x08 ∨ off = 0x0C) ∧ 0x10 = State.reset.params.base + off) :=
  ⟨rfl, ⟨rfl, 0x0C, by decide, rfl⟩, by simp [State.reset, Config.defaultParams]⟩

theorem witness_StepRunsSelectedOperation :
    (withTurns State.reset [wrCmd 1]).turns = .host (writeAccess 0 .cmd 1) :: [] ∧
    decode 0 (.access (writeAccess 0 .cmd 1)) = .ok .readRaw ∧
    (withTurns lastSample [.engine]).turns = .engine :: [] ∧ lastSample.turns = [] ∧
    decode 0 (.phase lastSample.phase) = .ok .sample ∧ State.reset.phase = .idle ∧ State.reset.turns = [] ∧
    (withTurns State.reset [.engine, wrCmd 1]).turns = .engine :: [wrCmd 1] ∧
    (withTurns lastSample [.reset]).turns = .reset :: [] := by decide

/-- The engine's turn while IDLE is passed over, as any number of them is (log 2). -/
theorem test_step_passes_over_engine_turn_while_idle :
    field (step (withTurns idleDone [.engine, .engine, wrCmd 1])) (fun t => (t.phase, t.turns)) = some (.wait, []) := by
  decide

theorem witness_FetchWordRunsDecodedWord :
    decodeTableWord 32 0xFFFFFFFF = some .cmdIllegal11 ∧ decodeTableWord 8 0x02 = some .cmdAvgZero ∧
    decodeTableWord 16 0xFF02 = some (.readAvg 255) := by decide

theorem witness_NoStepFaults :
    Fault.stepNotEnabled = .stepNotEnabled ∧ Instr.poll.isHost = false ∧ decodePhase State.reset.phase ≠ some .poll := by
  decide

theorem witness_EngineStepIsFunctionOfStateAndDraw :
    Instr.sample.isHost = false ∧ State.reset.phase = .idle ∧ lastSample.phase ≠ .idle ∧
    SameBlock lastSample (withTurns lastSample [.engine]) ∧ (withTurns lastSample [.engine]).dout = lastSample.dout ∧
    ∃ t, exec .sample lastSample = .next t :=
  ⟨rfl, rfl, by decide, by simp [SameBlock, withTurns], rfl, _, rfl⟩

theorem witness_DrawUsesOneLevel : lastSample.line = true :: [] ∧ State.reset.line = [] := by decide

theorem witness_PollStep :
    (waiting none [false]).phase = .wait ∧ (waiting none [false]).dout = false ∧ (waiting none [true]).dout = true ∧
    (waiting none [true]).params.readyTimeout = none ∧
    (waiting (some 1) [true]).params.readyTimeout = some 1 ∧ (waiting (some 1) [true]).dout = true ∧
    (waiting (some 1) [true]).wcnt + 1 ≥ 1 ∧
    (waiting (some 2) [true]).params.readyTimeout = some 2 ∧ ¬ (waiting (some 2) [true]).wcnt + 1 ≥ 2 := by decide

theorem witness_RiseStep :
    (block .rise 1 1).phase = .rise ∧ ∃ t, exec .poll (waiting none [false]) = .next t ∧ t.phase = .rise :=
  ⟨rfl, _, rfl, rfl⟩

theorem witness_SampleStep : lastSample.phase = .sample ∧ Inv lastSample := ⟨rfl, lastSample_inv⟩

theorem witness_FallStep :
    (falling 23).phase = .fall ∧ (falling 23).bitcnt + 1 = 24 ∧ (falling 22).phase = .fall ∧ (falling 22).bitcnt + 1 ≠ 24 ∧
    Inv (falling 23) ∧ ∃ t, exec .fall (falling 23) = .next t :=
  ⟨rfl, rfl, rfl, by decide, falling_inv, _, rfl⟩

theorem witness_XriseStep : beforeExtra.phase = .xrise ∧ Inv beforeExtra := ⟨rfl, beforeExtra_inv⟩

theorem witness_ExtraPulseIgnoresDataLine :
    (∃ t, exec .xrise beforeExtra = .next t) ∧ ∃ t, exec .xfall inExtra = .next t := ⟨⟨_, rfl⟩, _, rfl⟩

theorem witness_XfallStep :
    inExtra.phase = .xfall ∧
    (finishing 1 1 0 0x800000).sck = false ∧ (finishing 1 1 0 0x800000).phase = .finish ∧
    (∃ t, step (finishing 1 1 0 0x800000) = .next t) ∧
    (withTurns idleDone [wrCmd 1]).sck = false ∧ (withTurns idleDone [wrCmd 1]).phase = .idle ∧
    (∃ t, step (withTurns idleDone [wrCmd 1]) = .next t) ∧
    (waiting none [false]).sck = false ∧ (waiting none [false]).phase = .wait ∧
    ∃ t, step (waiting none [false]) = .next t :=
  ⟨rfl, rfl, rfl, ⟨_, rfl⟩, rfl, rfl, ⟨_, rfl⟩, rfl, rfl, _, rfl⟩

theorem witness_FinishStep :
    (finishing 3 2 5 0x000002).phase = .finish ∧ (finishing 3 2 5 0x000002).rem - 1 ≠ 0 ∧ Inv (finishing 3 2 5 0x000002) ∧
    (∃ t, exec .finish (finishing 3 2 5 0x000002) = .next t) ∧
    (finishing 1 1 0 0x800000).phase = .finish ∧ (finishing 1 1 0 0x800000).rem - 1 = 0 ∧
    Inv (finishing 1 1 0 0x800000) ∧ (finishing 1 1 0 0x800000).n = 1 ∧
    ∃ t, exec .finish (finishing 1 1 0 0x800000) = .next t :=
  ⟨rfl, by decide, finishing_more_inv, ⟨_, rfl⟩, rfl, rfl, finishing_last_inv, rfl, _, rfl⟩

theorem witness_StatusReadReturnsFields :
    lastSample.reject = .none ∧ { lastSample with reject := .illegal : State }.reject = .illegal ∧
    { lastSample with reject := .busy : State }.reject = .busy ∧ Start (withTurns State.reset [.engine]) :=
  ⟨rfl, rfl, rfl, rfl, rfl⟩

theorem witness_ResultReadReturnsResult : Inv idleDone ∧ Start (withTurns State.reset [.engine]) :=
  ⟨idleDone_inv, rfl, rfl⟩

theorem witness_RawReadReturnsRaw : Start (withTurns State.reset [.engine]) := ⟨rfl, rfl⟩

theorem witness_AcceptStartsTransaction :
    idleDone.phase = .idle ∧ (1 : BitVec 8) ≠ 0 ∧ (255 : BitVec 8) ≠ 0 ∧ Inv idleDone ∧
    ∃ t, exec (.readAvg 255) idleDone = .next t ∧ t.phase ≠ .idle :=
  ⟨rfl, by decide, by decide, idleDone_inv, _, rfl, by decide⟩

theorem witness_LegalCommandRefusedWhileBusy :
    lastSample.phase ≠ .idle ∧ (Instr.readAvg 255 = .readRaw ∨ ∃ n, n ≠ 0 ∧ Instr.readAvg 255 = .readAvg n) :=
  ⟨by decide, .inr ⟨255, by decide, rfl⟩⟩

theorem witness_IllegalCommandRefused :
    Instr.readAvg 0 = .cmdIllegal00 ∨ Instr.readAvg 0 = .cmdIllegal11 ∨ Instr.readAvg 0 = .cmdAvgZero ∨
      Instr.readAvg 0 = .readAvg 0 := by decide

theorem witness_CommandWriteResolvesInOrder :
    (withTurns lastSample [wrCmd 0x00000003]).turns = .host (writeAccess 0 .cmd 0x00000003) :: [] := rfl

theorem witness_SckChangesOnlyInClockSteps :
    ∃ t, step (falling 3) = .next t ∧ t.sck ≠ (falling 3).sck := ⟨_, rfl, by decide⟩

theorem witness_DataLineReadInThreePlaces :
    (∃ t, step lastSample = .next t ∧ drew lastSample t = true) ∧
    (withTurns idleDone [.host (readAccess 0 .status)]).select = .run .isReady ∧
    ∃ t, step (withTurns idleDone [.host (readAccess 0 .status)]) = .next t :=
  ⟨⟨_, rfl, by decide⟩, by decide, _, rfl⟩

theorem witness_DoneLifeCycle :
    (finishing 1 1 0 0x800000).select = .run .finish ∧ (finishing 1 1 0 0x800000).rem = 1 ∧
    (∃ t, step (finishing 1 1 0 0x800000) = .next t ∧ t.done ≠ (finishing 1 1 0 0x800000).done) ∧
    (withTurns idleDone [wrCmd 1]).select = .run .readRaw ∧ accepts .readRaw (withTurns idleDone [wrCmd 1]) ∧
    ∃ t, step (withTurns idleDone [wrCmd 1]) = .next t ∧ t.done ≠ idleDone.done :=
  ⟨by decide, rfl, ⟨_, rfl, by decide⟩, by decide, ⟨rfl, .inl rfl⟩, _, rfl, by decide⟩

/-- Idle after a ready timeout. -/
def timedOut : State := { block .idle 1 1 with timeout := true }

theorem witness_TimeoutLifeCycle :
    (waiting (some 1) [true]).select = .run .poll ∧ (waiting (some 1) [true]).dout = true ∧
    (waiting (some 1) [true]).params.readyTimeout = some 1 ∧ (waiting (some 1) [true]).wcnt + 1 ≥ 1 ∧
    (waiting (some 1) [true]).timeout = false ∧ (∃ t, step (waiting (some 1) [true]) = .next t ∧ t.timeout = true) ∧
    (withTurns timedOut [wrCmd 1]).select = .run .readRaw ∧ accepts .readRaw (withTurns timedOut [wrCmd 1]) ∧
    timedOut.timeout = true ∧ ∃ t, step (withTurns timedOut [wrCmd 1]) = .next t ∧ t.timeout = false :=
  ⟨by decide, rfl, rfl, by decide, rfl, ⟨_, rfl, rfl⟩, by decide, ⟨rfl, .inl rfl⟩, rfl, _, rfl, rfl⟩

theorem witness_RejectLifeCycle :
    (withTurns idleDone [wrCmd 2]).select = .run .cmdAvgZero ∧
    (∃ t, step (withTurns idleDone [wrCmd 2]) = .next t ∧ t.reject ≠ idleDone.reject) ∧
    (withTurns lastSample [wrCmd 1]).select = .run .readRaw ∧ lastSample.phase ≠ .idle ∧
    (∃ t, step (withTurns lastSample [wrCmd 1]) = .next t) ∧
    (withTurns idleDone [wrCmd 1]).select = .run .readRaw ∧ accepts .readRaw (withTurns idleDone [wrCmd 1]) ∧
    ∃ t, step (withTurns idleDone [wrCmd 1]) = .next t :=
  ⟨by decide, ⟨_, rfl, by decide⟩, by decide, by decide, ⟨_, rfl⟩, by decide, ⟨rfl, .inl rfl⟩, _, rfl⟩

theorem witness_ResultWrittenOnlyByCompletion :
    ∃ t, step (finishing 1 1 0 0x800000) = .next t ∧ t.result ≠ (finishing 1 1 0 0x800000).result :=
  ⟨_, rfl, by decide⟩

theorem witness_RawWrittenByEveryFinish :
    (finishing 3 2 5 0x000002).select = .run .finish ∧
    ∃ t, step (finishing 3 2 5 0x000002) = .next t ∧ t.raw ≠ (finishing 3 2 5 0x000002).raw :=
  ⟨by decide, _, rfl, by decide⟩

theorem witness_TransactionEndsOnlyThreeWays :
    (∃ t, step (finishing 1 1 0 0x800000) = .next t ∧ (finishing 1 1 0 0x800000).phase ≠ .idle ∧ t.phase = .idle) ∧
    (∃ t, step (waiting (some 1) [true]) = .next t ∧ (waiting (some 1) [true]).phase ≠ .idle ∧ t.phase = .idle) ∧
    ∃ t, step (withTurns lastSample [.reset]) = .next t ∧ lastSample.phase ≠ .idle ∧ t.phase = .idle :=
  ⟨⟨_, rfl, by decide, rfl⟩, ⟨_, rfl, by decide, rfl⟩, _, rfl, by decide, rfl⟩

theorem witness_HostNeverDisturbsTransaction :
    (withTurns lastSample [wrCmd 1]).turns = .host (writeAccess 0 .cmd 1) :: [] ∧ lastSample.phase ≠ .idle ∧
    ∃ t, step (withTurns lastSample [wrCmd 1]) = .next t := ⟨rfl, by decide, _, rfl⟩

theorem witness_CompletedResultsStay :
    ∃ t, idleDone.phase = .idle ∧ step (withTurns idleDone [wrCmd 3]) = .next t ∧
      (withTurns idleDone [wrCmd 3]).select ≠ .reset ∧
      ∀ i, (withTurns idleDone [wrCmd 3]).select = .run i → ¬ accepts i (withTurns idleDone [wrCmd 3]) := by
  refine ⟨_, rfl, rfl, by decide, ?_⟩
  rintro i h ⟨-, rfl | ⟨n, -, rfl⟩⟩ <;> exact absurd h (by simp [State.select, State.schedule, selectAccess, wrCmd, withTurns, decodeAccess,
    decodeTransaction, writeAccess, Access.resolve, Reg.offset, Reg.ofOffset, decodeCommand, opField, idleDone, block,
    State.reset, Config.defaultParams])

theorem witness_ParametersNeverChange : ∃ t, step (waiting (some 2) [true]) = .next t := ⟨_, rfl⟩

theorem witness_TimingParametersHaveNoEffect :
    (∃ t, step lastSample = .next t) ∧ ∃ r, step (withTurns lastSample [.host ⟨.read, 0, 2, 0⟩]) = .refused r :=
  ⟨⟨_, rfl⟩, _, rfl⟩

theorem witness_WaitCountUnusedWithoutTimeout :
    (waiting none [true]).params.readyTimeout = none ∧ ∃ t, step (waiting none [true]) = .next t := ⟨rfl, _, rfl⟩

theorem witness_ResetSetsEveryElement :
    (withTurns lastSample [.reset]).turns = .reset :: [] ∧
    ∃ v, (withTurns idleDone [wrCmd 1]).phase = .idle ∧ step (withTurns idleDone [wrCmd 1]) = .next v ∧ v.phase ≠ .idle :=
  ⟨rfl, _, rfl, rfl, by decide⟩

theorem witness_ResetLeavesOutsideWorld :
    (withTurns lastSample [.reset, .engine]).turns = .reset :: [.engine] ∧
    ∃ t, step (withTurns lastSample [.reset, .engine]) = .next t := ⟨rfl, _, rfl⟩

theorem witness_StartMeetsInvariant :
    Start { State.reset with params := { Config.defaultParams with base := 0x40000000, readyTimeout := some 1 } } :=
  ⟨rfl, rfl⟩

theorem witness_StepKeepsInvariant : Inv lastSample ∧ ∃ t, step lastSample = .next t := ⟨lastSample_inv, _, rfl⟩

theorem witness_ReachableStatesMeetRuleR29 : ∃ t, Reachable t ∧ t.phase = .wait :=
  ⟨_, .step (s := withTurns State.reset [wrCmd 1]) (.start ⟨rfl, rfl⟩) rfl, rfl⟩

theorem witness_DecodeIsTwosComplement :
    decode24 0x800000 = decode24 0x800000 ∧ ((-2 ^ 23 : Int) ≤ 2 ^ 23 - 1 ∧ (2 ^ 23 - 1 : Int) ≤ 2 ^ 23 - 1) := by decide

theorem witness_FloorDivRoundsDown :
    (2 : BitVec 8) ≠ 0 ∧ (255 : BitVec 8) ≠ 0 ∧ (-7 : Int) < 0 ∧ ¬ (((2 : BitVec 8).toNat : Int) ∣ -7) ∧
    (-4 : Int) * (2 : BitVec 8).toNat ≤ -7 ∧ (-7 : Int) < (-4 + 1) * (2 : BitVec 8).toNat := by decide

theorem witness_SumNeverWraps : Inv (finishing 3 2 5 0x000002) ∧ (finishing 3 2 5 0x000002).phase = .finish :=
  ⟨finishing_more_inv, rfl⟩

theorem witness_MeanInSampleRange :
    ((3 : BitVec 8) ≠ 0 ∧ [5, -8388608, 8388607].length = (3 : BitVec 8).toNat ∧
      ∀ x ∈ [(5 : Int), -8388608, 8388607], -2 ^ 23 ≤ x ∧ x ≤ 2 ^ 23 - 1) ∧
    Inv (finishing 1 1 0 0x800000) ∧ (finishing 1 1 0 0x800000).phase = .finish ∧ (finishing 1 1 0 0x800000).rem = 1 :=
  ⟨by decide, finishing_last_inv, rfl, rfl⟩

theorem witness_ArithmeticLaws :
    (0x7FFFFF : Raw24).toNat ≤ 0x7FFFFF ∧
    (0x800000 ≤ (0x800000 : Raw24).toNat ∧ (0x800000 : Raw24).toNat < (0xFFFFFF : Raw24).toNat) ∧
    ((255 : BitVec 8) ≠ 0 ∧ (-1 : Int) ≤ 0) ∧
    Inv (finishing 1 1 0 0x800000) ∧ (finishing 1 1 0 0x800000).phase = .finish :=
  ⟨by decide, by decide, by decide, finishing_last_inv, rfl⟩

/-- A read of −1 by a device that makes the wait see one level HIGH. -/
def readOfMinusOne : DeviceRead := ⟨1, List.replicate 24 true⟩

/-- A read of 0 by a device that is ready at once. -/
def readOfZero : DeviceRead := ⟨0, List.replicate 24 false⟩

/-- Idle, under the ready timeout `k`, with a device about to play `rs`, and with a write of `w` to CMD and all the engine
steps of `rs` to come. -/
def about (k : Option Nat) (rs : List DeviceRead) (w : Word) : State :=
  { idleDone with
    params := { Config.defaultParams with readyTimeout := k }
    line := rs.flatMap DeviceRead.levels
    turns := wrCmd w :: List.replicate (rs.map DeviceRead.steps).sum .engine }

theorem inTime_none (r : DeviceRead) (p : Config.Params) (seen : Nat) (h : p.readyTimeout = none) : r.inTime p seen := by
  intro k hk
  simp [h] at hk

theorem inTime_some (r : DeviceRead) (p : Config.Params) (seen k : Nat) (h : p.readyTimeout = some k)
    (hk : seen + r.waits < k) : r.inTime p seen := by
  intro j hj
  rw [h] at hj
  cases hj
  exact hk

theorem witness_ReadRawReturnsDecodedSample :
    (about (some 2) [readOfMinusOne] 0xFFFF0001).phase = .idle ∧ Inv (about (some 2) [readOfMinusOne] 0xFFFF0001) ∧
    opField 0xFFFF0001 = 0b01#2 ∧ readOfMinusOne.inTime (about (some 2) [readOfMinusOne] 0xFFFF0001).params 0 ∧
    readOfMinusOne.inTime (about none [readOfMinusOne] 1).params 0 ∧ readOfMinusOne.bits.length = 24 ∧
    (about (some 2) [readOfMinusOne] 0xFFFF0001).line = readOfMinusOne.levels ++ [] ∧
    (about (some 2) [readOfMinusOne] 0xFFFF0001).turns =
      .host (writeAccess 0 .cmd 0xFFFF0001) :: (List.replicate readOfMinusOne.steps .engine ++ []) :=
  ⟨rfl, by constructor <;> decide, by decide, inTime_some _ _ _ 2 rfl (by decide), inTime_none _ _ _ rfl, rfl, rfl, rfl⟩

theorem witness_ReadAvgReturnsFloorMean :
    (about (some 2) [readOfZero, readOfMinusOne] (readAvgWord 2)).phase = .idle ∧
    Inv (about (some 2) [readOfZero, readOfMinusOne] (readAvgWord 2)) ∧ opField (readAvgWord 2) = 0b10#2 ∧
    (∀ r ∈ [readOfZero] ++ [readOfMinusOne],
      r.inTime (about (some 2) [readOfZero, readOfMinusOne] (readAvgWord 2)).params 0) ∧
    ([readOfZero] ++ [readOfMinusOne]).length = (nField (readAvgWord 2)).toNat ∧
    (∀ r ∈ [readOfZero] ++ [readOfMinusOne], r.bits.length = 24) ∧
    (about (some 2) [readOfZero, readOfMinusOne] (readAvgWord 2)).line =
      ([readOfZero] ++ [readOfMinusOne]).flatMap DeviceRead.levels ++ [] ∧
    (about (some 2) [readOfZero, readOfMinusOne] (readAvgWord 2)).turns =
      .host (writeAccess 0 .cmd (readAvgWord 2)) ::
        (List.replicate (([readOfZero] ++ [readOfMinusOne]).map DeviceRead.steps).sum .engine ++ []) := by
  refine ⟨rfl, by constructor <;> decide, by decide, ?_, by decide, by decide, rfl, rfl⟩
  intro r hr
  refine inTime_some _ _ _ 2 rfl ?_
  revert r
  decide

/-- A hang with a command written into it. -/
def hanging : State := withTurns (waiting none [true]) [.engine, wrCmd 1]

theorem witness_UnreadyDeviceHangsPolling :
    (waiting none [true]).phase = .wait ∧ (waiting none [true]).params.readyTimeout = none ∧
    (waiting none [true]).select = .run .poll ∧ (waiting none [true]).dout = true ∧ Inv (waiting none [true]) ∧
    (∃ t, run 2 hanging = .next t) ∧
    (∀ j u, j < 2 → run j hanging = .next u → u.select ≠ .reset ∧ (u.select = .run .poll → u.dout = true)) ∧
    hanging.turns = List.replicate 1 .engine ++ [wrCmd 1] ∧ ∀ j, j < 1 → levelAt hanging j = true := by
  refine ⟨rfl, rfl, by decide, rfl, waiting_inv _, ⟨_, rfl⟩, ?_, rfl, by decide⟩
  intro j u hj h
  rcases j with _ | _ | j
  · cases h
    exact ⟨by decide, fun _ => rfl⟩
  · cases h
    exact ⟨by decide, fun h => absurd h (by decide)⟩
  · omega

theorem witness_ReadyTimeoutAfterKPolls :
    Inv (withTurns (waiting (some 2) [true, true]) [.engine, .engine]) ∧ (waiting (some 2) [true, true]).phase = .wait ∧
    (waiting (some 2) [true, true]).params.readyTimeout = some (1 + 1) ∧ (waiting (some 2) [true, true]).wcnt = 0 ∧
    (withTurns (waiting (some 2) [true, true]) [.engine, .engine]).turns = List.replicate (1 + 1) .engine ++ [] ∧
    (∀ j, j < 1 + 1 → levelAt (withTurns (waiting (some 2) [true, true]) [.engine, .engine]) j = true) ∧
    (waiting none [true]).params.readyTimeout = none ∧ (waiting none [true]).timeout = false ∧
    ∃ t, step (waiting none [true]) = .next t :=
  ⟨by constructor <;> decide, rfl, rfl, rfl, rfl, by decide, rfl, rfl, _, rfl⟩

/-- Waiting under the ready timeout `k`, with the read of −1 and all its engine steps to come. -/
def beginRead (k : Option Nat) : State :=
  withTurns (waiting k readOfMinusOne.levels) (List.replicate readOfMinusOne.steps .engine)

theorem witness_DeviceSeesOneRead :
    (beginRead (some 2)).phase = .wait ∧ Inv (beginRead (some 2)) ∧
    readOfMinusOne.inTime (beginRead (some 2)).params (beginRead (some 2)).wcnt ∧
    readOfMinusOne.inTime (beginRead none).params (beginRead none).wcnt ∧
    (beginRead (some 2)).turns = List.replicate readOfMinusOne.steps .engine ++ [] ∧ readOfMinusOne.bits.length = 24 ∧
    (beginRead (some 2)).line = readOfMinusOne.levels ++ [] :=
  ⟨rfl, by constructor <;> decide, inTime_some _ _ _ 2 rfl (by decide), inTime_none _ _ _ rfl, rfl, rfl, rfl⟩

theorem witness_NoCompletionBeforeMinimum :
    idleDone.phase = .idle ∧
    (Instr.readAvg 255 = .readRaw ∧ (255 : BitVec 8) = 1 ∨ (255 : BitVec 8) ≠ 0 ∧ Instr.readAvg 255 = .readAvg 255) ∧
    ∃ u t, exec (.readAvg 255) { withTurns idleDone [.engine, wrCmd 1] with line := [true] } = .next u ∧
      (∀ j v, j < 2 → run j u = .next v → v.select ≠ .reset ∧ ∀ i', v.select = .run i' → ¬ accepts i' v) ∧
      engineSteps 2 u < 76 * (255 : BitVec 8).toNat ∧ run 2 u = .next t := by
  refine ⟨rfl, by decide, _, _, rfl, ?_, by decide, rfl⟩
  intro j v hj h
  rcases j with _ | _ | j
  · cases h
    exact ⟨by decide, fun _ _ h => absurd h.1 (by decide)⟩
  · cases h
    exact ⟨by decide, fun _ _ h => absurd h.1 (by decide)⟩
  · omega

theorem witness_BusyRightAfterAcceptance :
    accepts .readRaw (withTurns idleDone [wrCmd 1, .host (readAccess 0 .status)]) ∧
    decode 0 (.access (writeAccess 0 .cmd 1)) = .ok .readRaw ∧
    (withTurns idleDone [wrCmd 1, .host (readAccess 0 .status)]).turns =
      .host (writeAccess 0 .cmd 1) :: .host (readAccess 0 .status) :: [] := ⟨⟨rfl, .inl rfl⟩, by decide, rfl⟩

theorem witness_FinishAndCommandInEitherOrder :
    (finishing 1 1 0 0x800000).phase = .finish ∧ (finishing 1 1 0 0x800000).rem = 1 ∧
    (opField 0x00000001 = 0b01#2 ∧ commandCount 0x00000001 = 1) ∧
    (opField 0x0000FF02 = 0b10#2 ∧ nField 0x0000FF02 ≠ 0 ∧ commandCount 0x0000FF02 = 255) ∧
    ¬ (opField 0x00000002 = 0b01#2 ∨ (opField 0x00000002 = 0b10#2 ∧ nField 0x00000002 ≠ 0)) := by decide

theorem witness_EngineEventuallySteps :
    (withTurns lastSample [wrCmd 1, .engine]).phase ≠ .idle ∧
    ∀ turn ∈ (withTurns lastSample [wrCmd 1, .engine]).turns,
      turn = .engine ∨ ∃ a i, turn = .host a ∧ decode 0 (.access a) = .ok i := by
  refine ⟨by decide, ?_⟩
  intro turn h
  simp only [withTurns, wrCmd, List.mem_cons, List.not_mem_nil, or_false] at h
  rcases h with rfl | rfl
  · exact .inr ⟨_, .readRaw, rfl, by decide⟩
  · exact .inl rfl

end Sys2Proof.Tests
end

section
/-! The statements of 00_scope.md: what a step runs (rule R10), what a draw answers (rule R11), and that the platform's
parameters are configuration (rules R7, R13). -/

namespace Sys2Proof.Machine

/-! ## The parameters through one step -/

/-- No host operation writes the parameters. -/
theorem exec_host_params {i : Instr} {s t : State} (hi : i.isHost = true) (h : exec i s = .next t) :
    t.params = s.params := by
  rcases exec_host_cases hi h with
    ⟨_, rfl⟩ | ⟨_, w, rfl⟩ | ⟨_, rfl⟩ | ⟨_, n, _, _, rfl⟩ | ⟨_, _, rfl⟩ | ⟨_, rfl⟩ <;> simp

@[simp] theorem sampleWith_params (d : Level) (s : State) : (sampleWith d s).params = s.params := rfl

@[simp] theorem fallNext_params (s : State) : (fallNext s).params = s.params := rfl

@[simp] theorem pollWith_params (d : Level) (s : State) : (pollWith d s).params = s.params := by simp [pollWith_frame]

@[simp] theorem finishNext_params (s : State) : (finishNext s).params = s.params := by simp [finishNext_frame]

/-- No engine step writes the parameters. -/
@[simp] theorem engineNext_params (i : Instr) (s : State) : (engineNext i s).params = s.params := by
  cases i <;> simp [engineNext]

/-- Settles O39: a step is a host operation, an engine step or a reset, and each of them keeps the parameters. -/
theorem parametersNeverChange : Obligations.ParametersNeverChange := by
  intro s t h
  rcases step_next_cases h with ⟨i, _, hhost, hexec⟩ | ⟨i, _, _, _, rfl⟩ | ⟨_, rfl⟩
  · exact (exec_host_params hhost hexec).trans (State.advance_params s)
  · simp
  · simp

/-! ## What a step runs -/

/-- Settles O8: one clause for each kind of turn that can stand next, and for the end of the list. -/
theorem stepRunsSelectedOperation : Obligations.StepRunsSelectedOperation := by
  intro s rest i
  refine ⟨?access, ?engine, step_of_reset, step_of_engine_idle, ?noTurns, step_of_no_turns_idle⟩
  case access => exact fun a ht hd => step_of_access ht ((decode_access_eq_ok_iff ..).1 hd)
  case engine => exact fun ht hd => step_of_engine ht ((decode_phase_eq_ok_iff ..).1 hd)
  case noTurns => exact fun ht hd => step_of_no_turns ht ((decode_phase_eq_ok_iff ..).1 hd)

/-! ## What a draw answers -/

/-- Settles O12: with a level listed and with none. -/
theorem drawUsesOneLevel : Obligations.DrawUsesOneLevel := by
  intro s
  constructor
  · exact fun d rest hline => ⟨State.dout_of_line hline, State.afterDraw_of_line hline⟩
  · exact fun hline => ⟨State.dout_of_no_line hline, State.afterDraw_of_no_line hline⟩

end Sys2Proof.Machine
end

section
/-! What one step can do to the block, said once for the statements of 10_state.md: it accepts a command, it touches REJECT
alone, it is the engine's, or it is a reset. -/

namespace Sys2Proof.Safety.SameTransaction

open Sys2Proof.Machine

/-! ## What a transaction works with, element by element -/

theorem sck {s t : State} (h : SameTransaction s t) : t.sck = s.sck := h.1

theorem phase {s t : State} (h : SameTransaction s t) : t.phase = s.phase := h.2.1

theorem done {s t : State} (h : SameTransaction s t) : t.done = s.done := by
  obtain ⟨_, _, _, _, _, _, _, _, hdone, _⟩ := h
  exact hdone

theorem timeout {s t : State} (h : SameTransaction s t) : t.timeout = s.timeout := by
  obtain ⟨_, _, _, _, _, _, _, _, _, htimeout, _⟩ := h
  exact htimeout

theorem result {s t : State} (h : SameTransaction s t) : t.result = s.result := by
  obtain ⟨_, _, _, _, _, _, _, _, _, _, _, hresult, _⟩ := h
  exact hresult

theorem raw {s t : State} (h : SameTransaction s t) : t.raw = s.raw := by
  obtain ⟨_, _, _, _, _, _, _, _, _, _, _, _, hraw⟩ := h
  exact hraw

end Sys2Proof.Safety.SameTransaction

namespace Sys2Proof.Machine

open Sys2Proof.Safety

/-! ## Host operations -/

/-- A READ_AVG of at least one sample runs as a legal command (rule R84). -/
theorem exec_readAvg {n : BitVec 8} (hn : n ≠ 0) (s : State) : exec (.readAvg n) s = .next (s.startTransaction n) := by
  simp only [exec, execReadAvg, if_neg hn]

/-- Only host operations are accepted. -/
theorem isHost_of_accepts {i : Instr} {s : State} (h : accepts i s) : i.isHost = true := by
  obtain ⟨_, rfl | ⟨n, _, rfl⟩⟩ := h <;> rfl

/-- Acceptance looks at PHASE alone. -/
@[simp] theorem accepts_advance (i : Instr) (s : State) : accepts i s.advance ↔ accepts i s := by
  simp [accepts]

/-- An accepted command runs as rule R79's common start. -/
theorem exec_of_accepts {i : Instr} {s : State} (h : accepts i s) : ∃ n, n ≠ 0 ∧ exec i s = .next (s.accept n) := by
  obtain ⟨hp, rfl | ⟨n, hn, rfl⟩⟩ := h
  · exact ⟨1, by decide, by simp [exec, execReadRaw, State.startTransaction, hp, readRawCount]⟩
  · exact ⟨n, hn, by simp [exec_readAvg hn, State.startTransaction, hp]⟩

/-- A host operation that is not accepted writes REJECT at most. -/
theorem exec_host_frame {i : Instr} {s t : State} (hi : i.isHost = true) (ha : ¬ accepts i s) (h : exec i s = .next t) :
    SameTransaction s t := by
  rcases exec_host_cases hi h with
    ⟨_, rfl⟩ | ⟨_, w, rfl⟩ | ⟨_, rfl⟩ | ⟨hp, n, hn, hcmd, rfl⟩ | ⟨_, _, rfl⟩ | ⟨_, rfl⟩
  case inr.inr.inr.inl =>
    refine absurd ⟨hp, ?_⟩ ha
    rcases hcmd with ⟨rfl, _⟩ | rfl
    · exact .inl rfl
    · exact .inr ⟨n, hn, rfl⟩
  all_goals simp [SameTransaction, SameBlock]

/-- A bus transaction that changes REJECT is a write to CMD. -/
theorem write_cmd_of_reject_ne {dir : Dir} {reg : Reg} {w : Word} {s t : State}
    (h : exec (decodeTransaction dir reg w) s = .next t) (hne : t.reject ≠ s.reject) : dir = .write ∧ reg = .cmd := by
  cases dir with
  | read =>
    refine absurd ?_ hne
    cases reg <;> cases h <;> simp
  | write =>
    cases reg with
    | cmd => exact ⟨rfl, rfl⟩
    | status => cases h; exact absurd rfl hne
    | result => cases h; exact absurd rfl hne
    | raw => cases h; exact absurd rfl hne

/-! ## Engine steps -/

/-- The engine step that PHASE names answers the state it leads to (rule R61). -/
theorem exec_of_decodePhase {i : Instr} {s : State} (h : decodePhase s.phase = some i) :
    exec i s = .next (engineNext i s) := by
  rcases exec_engine_cases (decodePhase_isHost h) s with ⟨_, he⟩ | ⟨hne, _⟩
  · exact he
  · exact absurd h hne

/-- SCK moves in the four clock steps only (rule R14). -/
theorem engineNext_sck_cases (i : Instr) (s : State) :
    (i = .rise ∨ i = .fall ∨ i = .xrise ∨ i = .xfall) ∨ (engineNext i s).sck = s.sck := by
  cases i <;> simp [engineNext, pollWith_frame, sampleWith, finishNext_frame]

/-- The completing FINISH, or RESULT and DONE stay (rules R23, R26). -/
theorem engineNext_completes_or_keeps (i : Instr) (s : State) :
    (i = .finish ∧ s.rem = 1 ∧ engineNext i s =
      { finishRead s with result := trunc32 (floorDiv (nextSum s) s.n), done := true, phase := .idle }) ∨
    ((engineNext i s).result = s.result ∧ (engineNext i s).done = s.done) := by
  cases i with
  | finish =>
    rcases finishNext_cases s with ⟨hrem, he⟩ | ⟨_, he⟩
    · exact .inl ⟨rfl, hrem, he⟩
    · exact .inr (by simp [engineNext, he, finishRead])
  | _ => exact .inr (by simp [engineNext, pollWith_frame, sampleWith, fallNext])

/-- The POLL that ends a transaction by the ready timeout, or TIMEOUT stays (rule R24). -/
theorem engineNext_timesOut_or_keeps (i : Instr) (s : State) :
    (i = .poll ∧ s.dout = true ∧ ∃ k, s.params.readyTimeout = some k ∧ k ≤ s.wcnt + 1 ∧
      engineNext i s = s.afterDraw.timeOut) ∨
    (engineNext i s).timeout = s.timeout := by
  cases i with
  | poll =>
    rcases pollWith_cases s.dout s.afterDraw with ⟨_, he⟩ | ⟨_, _, he⟩ | ⟨k, hd, hk, hle, he⟩ | ⟨k, _, _, _, he⟩
    case inr.inr.inl => exact .inl ⟨rfl, hd, k, by simpa using hk, by simpa using hle, he⟩
    all_goals exact .inr (by simp [engineNext, he])
  | _ => exact .inr (by simp [engineNext, sampleWith, fallNext, finishNext_frame])

/-- RAW is written by FINISH only (rule R27). -/
theorem engineNext_raw_cases (i : Instr) (s : State) :
    (i = .finish ∧ (engineNext i s).raw = s.acc) ∨ (i ≠ .finish ∧ (engineNext i s).raw = s.raw) := by
  cases i <;> simp [engineNext, pollWith_frame, sampleWith, fallNext, finishNext_frame]

/-- No engine step writes REJECT. -/
@[simp] theorem engineNext_reject (i : Instr) (s : State) : (engineNext i s).reject = s.reject := by
  cases i <;> simp [engineNext, pollWith_frame, sampleWith, fallNext, finishNext_frame]

/-! ## Steps -/

/-- What a step does to the block: an accepted command, a host operation that writes REJECT at most, the engine's step, or a
reset. -/
theorem step_block_cases {s t : State} (h : step s = .next t) :
    (∃ i n, s.select = .run i ∧ accepts i s ∧ n ≠ 0 ∧ t = s.advance.accept n) ∨
    (∃ i, s.select = .run i ∧ i.isHost = true ∧ ¬ accepts i s ∧ SameTransaction s t) ∨
    (∃ i, s.select = .run i ∧ decodePhase s.phase = some i ∧ t = engineNext i s.advance) ∨
    (s.select = .reset ∧ t = s.advance.applyReset) := by
  rcases step_next_cases h with ⟨i, hs, hhost, hexec⟩ | ⟨i, hs, _, hp, ht⟩ | hreset
  · by_cases ha : accepts i s
    · obtain ⟨n, hn, he⟩ := exec_of_accepts ((accepts_advance i s).2 ha)
      rw [hexec] at he
      cases he
      exact .inl ⟨i, n, hs, ha, hn, rfl⟩
    · have hframe := exec_host_frame hhost (by simpa using ha) hexec
      exact .inr (.inl ⟨i, hs, hhost, ha, by simpa [SameTransaction, SameBlock] using hframe⟩)
  · exact .inr (.inr (.inl ⟨i, hs, hp, ht⟩))
  · exact .inr (.inr (.inr hreset))

/-- The next state of an accepted command. -/
theorem step_of_accepts {s t : State} {i : Instr} (h : step s = .next t) (hs : s.select = .run i) (ha : accepts i s) :
    ∃ n, n ≠ 0 ∧ t = s.advance.accept n := by
  obtain ⟨n, hn, he⟩ := exec_of_accepts ((accepts_advance i s).2 ha)
  rw [step_of_select_run hs, he] at h
  cases h
  exact ⟨n, hn, rfl⟩

/-- The next state of an engine step. -/
theorem step_of_engine_select {s t : State} {i : Instr} (h : step s = .next t) (hs : s.select = .run i)
    (hi : i.isHost = false) : t = engineNext i s.advance := by
  rw [step_of_select_run hs] at h
  rcases exec_engine_cases hi s.advance with ⟨_, he⟩ | ⟨_, he⟩ <;> rw [he] at h <;> cases h
  rfl

end Sys2Proof.Machine
end

section
/-! The statements of 10_state.md on single elements of the block: which steps change them (rules R14, R15, R22 to R27, R43,
R116). -/

namespace Sys2Proof.Machine

open Sys2Proof.Safety

/-! ## SCK -/

/-- Settles O29: an accepted command and every other host operation keep SCK, and so does an engine step that is none of
the four. -/
theorem sckChangesOnlyInClockSteps : Obligations.SckChangesOnlyInClockSteps := by
  refine ⟨rfl, fun s t h hne => ?_⟩
  rcases step_block_cases h with ⟨i, n, _, _, _, rfl⟩ | ⟨i, _, _, _, hframe⟩ | ⟨i, hs, _, rfl⟩ | ⟨hs, _⟩
  · simp at hne
  · exact absurd hframe.sck hne
  · rcases engineNext_sck_cases i s.advance with (rfl | rfl | rfl | rfl) | hkeep
    case inr.inr.inl.inr => exact absurd (by simpa using hkeep) hne
    all_goals simp [hs]
  · simp [hs]

/-! ## The data line -/

/-- The operations that read the data line (rule R15). -/
def readsDataLine (i : Instr) : Prop := i = .poll ∨ i = .sample ∨ i = .isReady

/-- A step that leaves the device as one draw does has drawn. -/
theorem drew_eq_true {s t : State} (hl : t.line = s.afterDraw.line) (hk : t.drawIx = s.afterDraw.drawIx) :
    drew s t = true := by
  cases hline : s.line with
  | nil => simp [drew, hl, hk, State.afterDraw_of_no_line hline, hline]
  | cons d rest => simp [drew, hl, hk, State.afterDraw_of_line hline, hline]

/-- Taking the turn away is no draw. -/
@[simp] theorem drew_advance (s t : State) : drew s.advance t = drew s t := by simp [drew]

/-- Of the host operations the STATUS read alone draws. -/
theorem drew_of_exec_host {i : Instr} {s t : State} (hi : i.isHost = true) (h : exec i s = .next t) :
    drew s t = true ↔ readsDataLine i := by
  rcases exec_host_cases hi h with
    ⟨rfl, rfl⟩ | ⟨hread, w, rfl⟩ | ⟨⟨reg, data, rfl⟩, rfl⟩ | ⟨_, n, _, hcmd, rfl⟩ | ⟨_, hcmd, rfl⟩ | ⟨hcmd, rfl⟩
  · exact iff_of_true (drew_eq_true rfl rfl) (.inr (.inr rfl))
  · rcases hread with rfl | rfl | rfl <;> simp [drew, readsDataLine]
  · simp [drew, readsDataLine]
  · rcases hcmd with ⟨rfl, _⟩ | rfl <;> simp [drew, readsDataLine]
  · rcases hcmd with rfl | ⟨n, _, rfl⟩ <;> simp [drew, readsDataLine]
  · rcases hcmd with rfl | rfl | rfl | rfl <;> simp [drew, readsDataLine]

/-- Of the engine steps POLL and SAMPLE alone draw. -/
theorem drew_engineNext {i : Instr} (hi : i.isHost = false) (s : State) :
    drew s (engineNext i s) = true ↔ readsDataLine i := by
  cases i with
  | poll => simp [engineNext, drew_eq_true, pollWith_frame, readsDataLine]
  | sample => simp [engineNext, drew_eq_true, sampleWith, readsDataLine]
  | rise => simp [engineNext, drew, readsDataLine]
  | fall => simp [engineNext, drew, fallNext, readsDataLine]
  | xrise => simp [engineNext, drew, readsDataLine]
  | xfall => simp [engineNext, drew, readsDataLine]
  | finish => simp [engineNext, drew, finishNext_frame, readsDataLine]
  | _ => simp [Instr.isHost] at hi

/-- Settles O30: each selected operation draws exactly if it is one of the three, and bit 1 of the STATUS word is READY. -/
theorem dataLineReadInThreePlaces : Obligations.DataLineReadInThreePlaces := by
  intro s t h
  constructor
  · rcases step_next_cases h with ⟨i, hs, hhost, hexec⟩ | ⟨i, hs, hhost, _, rfl⟩ | ⟨hs, rfl⟩
    · simpa [hs, readsDataLine] using drew_of_exec_host hhost hexec
    · simpa [hs, readsDataLine] using drew_engineNext hhost s.advance
    · simp [hs, drew]
  · intro hs
    rw [step_of_select_run hs] at h
    cases h
    obtain ⟨_, hready, _⟩ := statusWord_bits s.advance s.advance.dout
    exact ⟨s.advance.statusWord s.advance.dout, by simp, by simpa using hready⟩

/-! ## DONE -/

/-- Settles O31: only acceptance and a completing FINISH write DONE. -/
theorem doneLifeCycle : Obligations.DoneLifeCycle := by
  refine ⟨rfl, fun s t h => ⟨?sets, ?clears, ?only⟩⟩
  case sets =>
    intro hs hrem
    obtain rfl := step_of_engine_select h hs rfl
    rcases finishNext_cases s.advance with ⟨_, he⟩ | ⟨hne, _⟩
    · simp [engineNext, he]
    · exact absurd (by simpa using hrem) hne
  case clears =>
    intro i hs ha
    obtain ⟨n, _, rfl⟩ := step_of_accepts h hs ha
    simp
  case only =>
    intro hne
    rcases step_block_cases h with ⟨i, n, hs, ha, _, _⟩ | ⟨i, _, _, _, hframe⟩ | ⟨i, hs, _, rfl⟩ | ⟨hs, _⟩
    · exact .inr (.inl ⟨i, hs, ha⟩)
    · exact absurd hframe.done hne
    · rcases engineNext_completes_or_keeps i s.advance with ⟨rfl, hrem, _⟩ | ⟨_, hkeep⟩
      · exact .inl ⟨hs, by simpa using hrem⟩
      · exact absurd (by simpa using hkeep) hne
    · exact .inr (.inr hs)

/-! ## TIMEOUT -/

/-- A POLL that sees HIGH for the k-th time under READY_TIMEOUT = some k ends the transaction (rule R66). -/
theorem pollWith_of_expired {s : State} {k : Nat} (hk : s.params.readyTimeout = some k) (hle : k ≤ s.wcnt + 1) :
    pollWith true s = s.timeOut := by
  simp [pollWith, hk, hle]

/-- Settles O32: only acceptance and the expiring POLL write TIMEOUT. -/
theorem timeoutLifeCycle : Obligations.TimeoutLifeCycle := by
  refine ⟨rfl, fun s t h => ⟨?clears, ?sets, ?onlyPoll, ?onlyAccept⟩⟩
  case clears =>
    intro i hs ha
    obtain ⟨n, _, rfl⟩ := step_of_accepts h hs ha
    simp
  case sets =>
    intro k hs hd hk hle
    obtain rfl := step_of_engine_select h hs rfl
    have hexpired : pollWith true s.advance.afterDraw = s.advance.afterDraw.timeOut :=
      pollWith_of_expired (by simpa using hk) (by simpa using hle)
    simp [engineNext, hd, hexpired]
  case onlyPoll =>
    intro hbefore hafter
    rcases step_block_cases h with ⟨i, n, _, _, _, rfl⟩ | ⟨i, _, _, _, hframe⟩ | ⟨i, hs, _, rfl⟩ | ⟨_, rfl⟩
    · simp at hafter
    · simp [hframe.timeout, hbefore] at hafter
    · rcases engineNext_timesOut_or_keeps i s.advance with ⟨rfl, hd, k, hk, hle, he⟩ | hkeep
      · exact ⟨hs, by simpa using hd, by simp [he], k, by simpa using hk, by simpa using hle⟩
      · simp [hkeep, hbefore] at hafter
    · simp at hafter
  case onlyAccept =>
    intro hbefore hafter
    rcases step_block_cases h with ⟨i, n, hs, ha, _, _⟩ | ⟨i, _, _, _, hframe⟩ | ⟨i, hs, _, rfl⟩ | ⟨hs, _⟩
    · exact .inl ⟨i, hs, ha⟩
    · simp [hframe.timeout, hbefore] at hafter
    · rcases engineNext_timesOut_or_keeps i s.advance with ⟨_, _, k, _, _, he⟩ | hkeep
      · simp [he] at hafter
      · simp [hkeep, hbefore] at hafter
    · exact .inr hs

/-! ## REJECT -/

/-- The code 0b11 stands for no value of REJECT (rule R25). -/
@[simp] theorem Reject.code_ne_reserved (r : Reject) : r.code ≠ 0b11#2 := by
  cases r <;> decide

/-- A legal command while a transaction is in flight (rule R87). -/
theorem exec_of_legal_while_busy {i : Instr} {s : State} (hi : i = .readRaw ∨ ∃ n, n ≠ 0 ∧ i = .readAvg n)
    (hp : s.phase ≠ .idle) : exec i s = .next (s.recordReject .busy) := by
  rcases hi with rfl | ⟨n, hn, rfl⟩
  · simp [exec, execReadRaw, State.startTransaction, hp]
  · simp [exec_readAvg hn, State.startTransaction, hp]

/-- A step that changes REJECT is a reset or runs a write to CMD. -/
theorem cmd_write_of_reject_ne {s t : State} (h : step s = .next t) (hne : t.reject ≠ s.reject) :
    s.select = .reset ∨ ∃ a i, s.select = .run i ∧ decode s.params.base (.access a) = .ok i ∧ a.dir = .write ∧
      a.addr = s.params.base := by
  rcases step_next_cases h with ⟨i, hs, hhost, hexec⟩ | ⟨i, _, _, _, rfl⟩ | ⟨hs, _⟩
  · rcases select_run_cases hs with ⟨_, a, _, hdecode⟩ | ⟨hengine, _⟩
    · obtain ⟨reg, _, haddr, rfl⟩ := (decodeAccess_eq_ok_iff ..).1 hdecode
      obtain ⟨hdir, rfl⟩ := write_cmd_of_reject_ne hexec (by simpa using hne)
      exact .inr ⟨a, _, hs, (decode_access_eq_ok_iff ..).2 hdecode, hdir, haddr⟩
    · simp [hhost] at hengine
  · simp at hne
  · exact .inl hs

/-- Settles O33: the three writers one by one, and every change of REJECT is one of theirs or a reset. -/
theorem rejectLifeCycle : Obligations.RejectLifeCycle := by
  refine ⟨rfl, fun s t h => ⟨?illegal, ?busy, ?accepted, cmd_write_of_reject_ne h, t.reject.code_ne_reserved⟩⟩
  case illegal =>
    intro i hs hi
    rw [step_of_select_run hs] at h
    rcases hi with rfl | rfl | rfl <;> cases h <;> simp
  case busy =>
    intro i hs hi hp
    rw [step_of_select_run hs, exec_of_legal_while_busy hi (by simpa using hp)] at h
    cases h
    simp
  case accepted =>
    intro i hs ha
    obtain ⟨n, _, rfl⟩ := step_of_accepts h hs ha
    simp

/-! ## RESULT and RAW -/

/-- Settles O34: of the engine steps a completing FINISH alone writes RESULT, and no host operation does. -/
theorem resultWrittenOnlyByCompletion : Obligations.ResultWrittenOnlyByCompletion := by
  refine ⟨rfl, fun s t h hne => ?_⟩
  rcases step_block_cases h with ⟨i, n, _, _, _, rfl⟩ | ⟨i, _, _, _, hframe⟩ | ⟨i, hs, _, rfl⟩ | ⟨hs, _⟩
  · simp at hne
  · exact absurd hframe.result hne
  · rcases engineNext_completes_or_keeps i s.advance with ⟨rfl, hrem, he⟩ | ⟨hkeep, _⟩
    · exact .inl ⟨hs, by simpa using hrem, by simp [he], by simp [he], by simp [he, nextSum]⟩
    · exact absurd (by simpa using hkeep) hne
  · exact .inr hs

/-- Settles O35: of the engine steps FINISH alone writes RAW, and no host operation does. -/
theorem rawWrittenByEveryFinish : Obligations.RawWrittenByEveryFinish := by
  refine ⟨rfl, fun s t h => ⟨?writes, ?only⟩⟩
  case writes =>
    intro hs
    obtain rfl := step_of_engine_select h hs rfl
    simp [engineNext, finishNext_frame]
  case only =>
    intro hne
    rcases step_block_cases h with ⟨i, n, _, _, _, rfl⟩ | ⟨i, _, _, _, hframe⟩ | ⟨i, hs, _, rfl⟩ | ⟨hs, _⟩
    · simp at hne
    · exact absurd hframe.raw hne
    · rcases engineNext_raw_cases i s.advance with ⟨rfl, _⟩ | ⟨_, hkeep⟩
      · exact .inl hs
      · exact absurd (by simpa using hkeep) hne
    · exact .inr hs

/-- Settles O38: while IDLE the engine has no step, so what is neither accepted nor a reset writes REJECT at most. -/
theorem completedResultsStay : Obligations.CompletedResultsStay := by
  intro s t hidle h hnoreset hnoaccept
  rcases step_block_cases h with ⟨i, n, hs, ha, _, _⟩ | ⟨i, _, _, _, hframe⟩ | ⟨i, _, hp, _⟩ | ⟨hs, _⟩
  · exact absurd ha (hnoaccept i hs)
  · exact ⟨hframe.phase.trans hidle, hframe.result, hframe.raw, hframe.done, hframe.timeout⟩
  · simp [hidle, decodePhase] at hp
  · exact absurd hs hnoreset

/-! ## Reset -/

/-- Settles O43: a reset keeps every field that is not one of rule R13's thirteen. -/
theorem resetLeavesOutsideWorld : Obligations.ResetLeavesOutsideWorld := by
  intro s t rest ht h
  rw [step_of_reset ht] at h
  cases h
  simp [SameOutside]

end Sys2Proof.Machine
end

section
/-! The invariant of rule R29: a run's start meets it, and an accepted command, each engine step and a reset keep it. -/

namespace Sys2Proof.Machine

open Sys2Proof.Safety

/-! ## The arithmetic of SAMPLE and FINISH -/

/-- One more sampled bit (rule R69). -/
theorem shiftIn_lt {acc : Raw24} {b : Nat} (d : Level) (h : acc.toNat < 2 ^ b) : (shiftIn acc d).toNat < 2 ^ (b + 1) := by
  have hkept : (acc.extractLsb' 0 23).toNat < 2 ^ b := by
    rw [BitVec.extractLsb'_toNat]
    exact (Nat.mod_le _ _).trans_lt h
  have hbit : (BitVec.ofBool d).toNat < 2 ^ (b + 1) :=
    (BitVec.ofBool d).isLt.trans_le (Nat.pow_le_pow_right (by decide) (by omega))
  rw [shiftIn, BitVec.toNat_append]
  refine Nat.or_lt_two_pow ?_ hbit
  rw [Nat.shiftLeft_eq, pow_succ]
  omega

/-- Rule R90's reading is two's complement. -/
theorem decode24_eq_toInt (raw : Raw24) : decode24 raw = raw.toInt :=
  (BitVec.toInt_eq_msb_cond raw).symm

/-- The sample range (rule R91). -/
theorem decode24_range (raw : Raw24) : -2 ^ 23 ≤ decode24 raw ∧ decode24 raw ≤ 2 ^ 23 - 1 := by
  have hlow := BitVec.le_toInt raw
  have hhigh := BitVec.toInt_lt (x := raw)
  rw [decode24_eq_toInt]
  omega

/-- The quotient of a sum of `n` samples lies in the sample range (rule R94). -/
theorem floorDiv_range {a : Int} {n : BitVec 8} (hn : n ≠ 0) (hlow : (n.toNat : Int) * (-2 ^ 23) ≤ a)
    (hhigh : a ≤ (n.toNat : Int) * (2 ^ 23 - 1)) : -2 ^ 23 ≤ floorDiv a n ∧ floorDiv a n ≤ 2 ^ 23 - 1 := by
  obtain ⟨hdiv, hpos⟩ := floorDiv_eq_ediv a hn
  rw [hdiv]
  exact ⟨(Int.le_ediv_iff_mul_le hpos).2 (by linarith), Int.ediv_le_of_le_mul hpos (by linarith)⟩

/-- REM after a FINISH while reads remain (rule R20). -/
theorem toNat_sub_one {x : BitVec 8} (h : 1 ≤ x.toNat) : (x - 1).toNat = x.toNat - 1 := by
  bv_omega

end Sys2Proof.Machine

namespace Sys2Proof.Safety.Inv

open Sys2Proof.Machine

/-! ## What the invariant gives -/

/-- SCK is low but in the high half of a pulse (R29 item 1). -/
theorem sck_low {s : State} (hinv : Inv s) (h : ¬ (s.phase = .sample ∨ s.phase = .fall ∨ s.phase = .xfall)) :
    s.sck = false :=
  Bool.eq_false_iff.2 fun hsck => h (hinv.sck_high_iff.1 hsck)

/-- A ready timeout that the invariant allows is at least 1 (rule R7). -/
theorem readyTimeout_pos {s : State} (hinv : Inv s) {k : Nat} (hk : s.params.readyTimeout = some k) : 0 < k :=
  (Nat.zero_le _).trans_lt (hinv.wait_count k hk)

/-- The sum that FINISH forms holds N − REM + 1 samples (rule R92). -/
theorem nextSum_range {s : State} (hinv : Inv s) :
    ((s.n.toNat : Int) - s.rem.toNat + 1) * (-2 ^ 23) ≤ nextSum s ∧
    nextSum s ≤ ((s.n.toNat : Int) - s.rem.toNat + 1) * (2 ^ 23 - 1) := by
  obtain ⟨hlow, hhigh⟩ := hinv.sum_range
  obtain ⟨dlow, dhigh⟩ := decode24_range s.acc
  unfold nextSum
  omega

/-- FINISH adds exactly (rules R21, R92). -/
theorem toInt_nextSum {s : State} (hinv : Inv s) (hp : s.phase = .finish) :
    (trunc32 (nextSum s)).toInt = nextSum s := by
  obtain ⟨hlow, hhigh⟩ := hinv.nextSum_range
  obtain ⟨hrem, hle, hn, _, _⟩ := hinv.in_flight (by simp [hp])
  exact toInt_trunc32 (by omega) (by omega)

/-- The mean that the completing FINISH forms lies in the sample range (rule R94). -/
theorem mean_range {s : State} (hinv : Inv s) (hp : s.phase = .finish) (hrem : s.rem = 1) :
    -2 ^ 23 ≤ floorDiv (nextSum s) s.n ∧ floorDiv (nextSum s) s.n ≤ 2 ^ 23 - 1 := by
  obtain ⟨hlow, hhigh⟩ := hinv.nextSum_range
  obtain ⟨_, hle, _, _, _⟩ := hinv.in_flight (by simp [hp])
  have hone : s.rem.toNat = 1 := by simp [hrem]
  have hn : s.n ≠ 0 := fun h => by simp [h, hone] at hle
  exact floorDiv_range hn (by rw [hone] at hlow; omega) (by rw [hone] at hhigh; omega)

/-! ## What keeps the invariant -/

/-- The invariant speaks of the block and the parameters, and every REJECT meets it. -/
theorem of_sameTransaction {s t : State} (hinv : Inv s) (h : SameTransaction s t) (hparams : t.params = s.params) :
    Inv t := by
  obtain ⟨hsck, hphase, hbitcnt, hacc, hn, hrem, hsum, hwcnt, hdone, htimeout, _, hresult, _⟩ := h
  obtain ⟨high, cleared, before, after, transferred, flight, excl, result, _, le, sum, noTimeout, wait⟩ := hinv
  constructor
  case reject_code => exact t.reject.code_ne_reserved
  all_goals simpa only [hsck, hphase, hbitcnt, hacc, hn, hrem, hsum, hwcnt, hdone, htimeout, hresult, hparams]

theorem advance {s : State} (hinv : Inv s) : Inv s.advance :=
  hinv.of_sameTransaction (by simp [SameTransaction, SameBlock]) (by simp)

theorem afterDraw {s : State} (hinv : Inv s) : Inv s.afterDraw :=
  hinv.of_sameTransaction (by simp [SameTransaction, SameBlock]) (by simp)

theorem applyReset {s : State} (h : ∀ k, s.params.readyTimeout = some k → 0 < k) : Inv s.applyReset where
  sck_high_iff := by simp
  cleared := by simp
  before_sample := by simp
  after_sample := by simp
  transferred := by simp
  in_flight := by simp
  done_excludes_timeout := by simp
  result_range := by simp
  reject_code := by simp
  rem_le_n := by simp
  sum_range := by simp
  no_timeout := by simp
  wait_count := h

/-- An accepted command starts a wait with all its samples to come (rule R79). -/
theorem accept {s : State} {n : BitVec 8} (hinv : Inv s) (hidle : s.phase = .idle) (hn : n ≠ 0) : Inv (s.accept n) where
  sck_high_iff := by simp [hinv.sck_low (by simp [hidle])]
  cleared := by simp
  before_sample := by simp
  after_sample := by simp
  transferred := by simp
  in_flight := fun _ => ⟨by simp; bv_omega, le_refl _, by simp; omega, rfl, rfl⟩
  done_excludes_timeout := by simp
  result_range := hinv.result_range
  reject_code := by simp
  rem_le_n := le_refl _
  sum_range := by simp
  no_timeout := fun _ => rfl
  wait_count := fun _ => hinv.readyTimeout_pos

/-- Rule R66: the wait ends in a first pulse, ends by the timeout, or goes on below it. -/
theorem poll {s : State} (hinv : Inv s) (hp : s.phase = .wait) (d : Level) : Inv (pollWith d s) := by
  have hsck := hinv.sck_low (by simp [hp])
  have hflight := hinv.in_flight (by simp [hp])
  obtain ⟨hbitcnt, hacc⟩ := hinv.cleared (.inr hp)
  rcases pollWith_cases d s with ⟨_, he⟩ | ⟨_, _, he⟩ | ⟨k, _, hk, _, he⟩ | ⟨k, _, hk, hlt, he⟩
  · rw [he]
    exact { hinv with
      sck_high_iff := by simp [hsck]
      cleared := by simp
      before_sample := by simp [hbitcnt, hacc]
      after_sample := by simp
      transferred := by simp
      in_flight := fun _ => hflight
      wait_count := fun _ => hinv.readyTimeout_pos }
  · rwa [he]
  · obtain ⟨_, _, _, hdone, _⟩ := hflight
    rw [he]
    exact { hinv with
      sck_high_iff := by simp [hsck]
      cleared := fun _ => ⟨hbitcnt, hacc⟩
      before_sample := by simp
      after_sample := by simp
      transferred := by simp
      in_flight := by simp
      done_excludes_timeout := by simp [hdone]
      no_timeout := by simp [hk]
      wait_count := fun _ => hinv.readyTimeout_pos }
  · rw [he]
    exact { hinv with
      wait_count := fun j hj => by
        have hjk : j = k := by simpa [hk] using hj.symm
        rwa [hjk] }

/-- Rule R68. -/
theorem rise {s : State} (hinv : Inv s) (hp : s.phase = .rise) : Inv ((s.setSck true).setPhase .sample) :=
  { hinv with
    sck_high_iff := by simp
    cleared := by simp
    before_sample := fun _ => hinv.before_sample (.inl hp)
    after_sample := by simp
    transferred := by simp
    in_flight := fun _ => hinv.in_flight (by simp [hp]) }

/-- Rule R69: ACC gains one bit. -/
theorem sample {s : State} (hinv : Inv s) (hp : s.phase = .sample) (d : Level) : Inv (sampleWith d s) :=
  have ⟨hbitcnt, hacc⟩ := hinv.before_sample (.inr hp)
  { hinv with
    sck_high_iff := by simp [sampleWith, hinv.sck_high_iff, hp]
    cleared := by simp [sampleWith]
    before_sample := by simp [sampleWith]
    after_sample := fun _ => ⟨hbitcnt, shiftIn_lt d hacc⟩
    transferred := by simp [sampleWith]
    in_flight := fun _ => hinv.in_flight (by simp [hp]) }

/-- Rule R70: BITCNT catches up with ACC, and the 24th pulse was the last one of data. -/
theorem fall {s : State} (hinv : Inv s) (hp : s.phase = .fall) : Inv (fallNext s) := by
  obtain ⟨hbitcnt, hacc⟩ := hinv.after_sample hp
  have hsucc : (s.bitcnt + 1).toNat = s.bitcnt.toNat + 1 := by bv_omega
  rcases fallNext_cases s with ⟨hlast, he⟩ | ⟨hmore, he⟩
  · rw [he]
    exact { hinv with
      sck_high_iff := by simp
      cleared := by simp
      before_sample := by simp
      after_sample := by simp
      transferred := fun _ => congrArg BitVec.toNat hlast
      in_flight := fun _ => hinv.in_flight (by simp [hp]) }
  · have hle : s.bitcnt.toNat + 1 ≤ 23 := by bv_omega
    rw [he]
    exact { hinv with
      sck_high_iff := by simp
      cleared := by simp
      before_sample := fun _ => by rw [hsucc]; exact ⟨hle, hacc⟩
      after_sample := by simp
      transferred := by simp
      in_flight := fun _ => hinv.in_flight (by simp [hp]) }

/-- Rule R71. -/
theorem xrise {s : State} (hinv : Inv s) (hp : s.phase = .xrise) : Inv ((s.setSck true).setPhase .xfall) :=
  { hinv with
    sck_high_iff := by simp
    cleared := by simp
    before_sample := by simp
    after_sample := by simp
    transferred := fun _ => hinv.transferred (.inl hp)
    in_flight := fun _ => hinv.in_flight (by simp [hp]) }

/-- Rule R72. -/
theorem xfall {s : State} (hinv : Inv s) (hp : s.phase = .xfall) : Inv ((s.setSck false).setPhase .finish) :=
  { hinv with
    sck_high_iff := by simp
    cleared := by simp
    before_sample := by simp
    after_sample := by simp
    transferred := fun _ => hinv.transferred (.inr (.inl hp))
    in_flight := fun _ => hinv.in_flight (by simp [hp]) }

/-- Rule R73: SUM gains one sample for the one that REM loses, and the mean of all N is a sample again. -/
theorem finish {s : State} (hinv : Inv s) (hp : s.phase = .finish) : Inv (finishNext s) := by
  have hsck := hinv.sck_low (by simp [hp])
  obtain ⟨hpos, hle, hn, hdone, htimeout⟩ := hinv.in_flight (by simp [hp])
  have hrem := toNat_sub_one hpos
  have hrem_le : (s.rem - 1).toNat ≤ s.n.toNat := by omega
  have hsum : ((s.n.toNat : Int) - (s.rem - 1).toNat) * (-2 ^ 23) ≤ (trunc32 (nextSum s)).toInt ∧
      (trunc32 (nextSum s)).toInt ≤ ((s.n.toNat : Int) - (s.rem - 1).toNat) * (2 ^ 23 - 1) := by
    obtain ⟨hlow, hhigh⟩ := hinv.nextSum_range
    rw [hinv.toInt_nextSum hp, hrem]
    omega
  rcases finishNext_cases s with ⟨hlast, he⟩ | ⟨hmore, he⟩
  · obtain ⟨hlow, hhigh⟩ := hinv.mean_range hp hlast
    rw [he]
    exact { hinv with
      sck_high_iff := by simp [finishRead, hsck]
      cleared := fun _ => ⟨rfl, rfl⟩
      before_sample := by simp
      after_sample := by simp
      transferred := by simp
      in_flight := by simp
      done_excludes_timeout := by simp [finishRead, htimeout]
      result_range := by rw [toInt_trunc32 (by omega) (by omega)]; exact ⟨hlow, hhigh⟩
      rem_le_n := hrem_le
      sum_range := hsum }
  · have hleft : 1 ≤ (s.rem - 1).toNat := by bv_omega
    rw [he]
    exact { hinv with
      sck_high_iff := by simp [finishRead, hsck]
      cleared := fun _ => ⟨rfl, rfl⟩
      before_sample := by simp
      after_sample := by simp
      transferred := by simp
      in_flight := fun _ => ⟨hleft, hrem_le, hn, hdone, htimeout⟩
      rem_le_n := hrem_le
      sum_range := hsum }

/-- Every engine step keeps the invariant, in the phase that selects it. -/
theorem engine {s : State} {i : Instr} (hinv : Inv s) (h : decodePhase s.phase = some i) : Inv (engineNext i s) := by
  rcases phase_of_decodePhase h with
    ⟨rfl, hp⟩ | ⟨rfl, hp⟩ | ⟨rfl, hp⟩ | ⟨rfl, hp⟩ | ⟨rfl, hp⟩ | ⟨rfl, hp⟩ | ⟨rfl, hp⟩
  · exact hinv.afterDraw.poll (by simpa using hp) s.dout
  · exact hinv.rise hp
  · exact hinv.afterDraw.sample (by simpa using hp) s.dout
  · exact hinv.fall hp
  · exact hinv.xrise hp
  · exact hinv.xfall hp
  · exact hinv.finish hp

end Sys2Proof.Safety.Inv

namespace Sys2Proof.Machine

open Sys2Proof.Safety

/-! ## The statements -/

/-- Settles O45: what a step does to the block is one of four things, and each keeps the invariant. -/
theorem stepKeepsInvariant : Obligations.StepKeepsInvariant := by
  intro s t hinv h
  have hparams := parametersNeverChange s t h
  rcases step_block_cases h with ⟨i, n, _, ⟨hidle, _⟩, hn, rfl⟩ | ⟨i, _, _, _, hframe⟩ | ⟨i, _, hp, rfl⟩ | ⟨_, rfl⟩
  · exact hinv.advance.accept (by simpa using hidle) hn
  · exact hinv.of_sameTransaction hframe hparams
  · exact hinv.advance.engine (by simpa using hp)
  · exact Inv.applyReset fun _ => hinv.advance.readyTimeout_pos

/-- Settles O44: a start is a reset block whose READY_TIMEOUT is not 0. -/
theorem startMeetsInvariant : Obligations.StartMeetsInvariant := by
  intro s ⟨hwf, hreset⟩
  have hk : ∀ k, s.params.readyTimeout = some k → 0 < k := by
    intro k hk
    simp only [Config.Params.wellFormed, hk, Bool.and_eq_true, bne_iff_ne, ne_eq, Option.some.injEq] at hwf
    omega
  rw [hreset]
  exact Inv.applyReset hk

/-- The invariant holds in every state that steps lead to from a start. -/
theorem inv_of_reachable {s : State} (h : Reachable s) : Inv s := by
  induction h with
  | start h => exact startMeetsInvariant _ h
  | step _ h ih => exact stepKeepsInvariant _ _ ih h

/-- Settles O46: the nine items are items of the invariant. -/
theorem reachableStatesMeetRuleR29 : Obligations.ReachableStatesMeetRuleR29 := by
  intro s h
  have hinv := inv_of_reachable h
  refine ⟨⟨hinv.sck_high_iff, fun hp => hinv.sck_low ?_⟩, hinv.cleared, hinv.before_sample, hinv.after_sample,
    hinv.transferred, hinv.in_flight, hinv.done_excludes_timeout, hinv.result_range, hinv.reject_code⟩
  rcases hp with hp | hp <;> simp [hp]

end Sys2Proof.Machine
end

section
/-! Without READY_TIMEOUT, WCNT is read by no step: two states that differ in WCNT alone step alike (rule R22). -/

namespace Sys2Proof.Machine

/-- `s` with another wait count. -/
def State.setWcnt (w : Nat) (s : State) : State := { s with wcnt := w }

/-! ## What choosing a step and a draw make of another wait count -/

theorem State.select_setWcnt (w : Nat) (s : State) : (s.setWcnt w).select = s.select :=
  (State.schedule_congr (s := s) (s' := s.setWcnt w) rfl rfl rfl s.turns).1

theorem State.advance_setWcnt (w : Nat) (s : State) : (s.setWcnt w).advance = s.advance.setWcnt w := by
  obtain ⟨_, hturns, hix⟩ := State.schedule_congr (s := s) (s' := s.setWcnt w) rfl rfl rfl s.turns
  rw [State.advance_eq (s.setWcnt w), State.advance_eq s]
  simp only [State.setWcnt, State.mk.injEq, and_true, true_and]
  exact ⟨hturns, hix⟩

theorem State.afterDraw_setWcnt (w : Nat) (s : State) : (s.setWcnt w).afterDraw = s.afterDraw.setWcnt w := by
  cases hline : s.line with
  | nil => rw [State.afterDraw_of_no_line hline, State.afterDraw_of_no_line (s := s.setWcnt w) hline]; rfl
  | cons d rest => rw [State.afterDraw_of_line hline, State.afterDraw_of_line (s := s.setWcnt w) hline]; rfl

theorem State.dout_setWcnt (w : Nat) (s : State) : (s.setWcnt w).dout = s.dout := State.dout_congr rfl rfl

/-! ## What the operations make of it -/

/-- A legal command forgets the wait count or leaves it. -/
theorem startTransaction_setWcnt (n : BitVec 8) (w : Nat) (s : State) :
    ∃ w', (s.setWcnt w).startTransaction n = (s.startTransaction n).setWcnt w' := by
  by_cases hp : s.phase = .idle
  · exact ⟨0, by simp [State.startTransaction, State.setWcnt, State.accept, hp]⟩
  · exact ⟨w, by simp [State.startTransaction, State.setWcnt, State.recordReject, hp]⟩

/-- Without READY_TIMEOUT, POLL forgets the wait count or leaves it. -/
theorem pollWith_setWcnt (d : Level) (w : Nat) {s : State} (h : s.params.readyTimeout = none) :
    ∃ w', pollWith d (s.setWcnt w) = (pollWith d s).setWcnt w' := by
  cases d with
  | false => exact ⟨0, rfl⟩
  | true => exact ⟨w, by simp [pollWith, State.setWcnt, h]⟩

theorem finishNext_setWcnt (w : Nat) (s : State) : finishNext (s.setWcnt w) = (finishNext s).setWcnt w := by
  unfold finishNext
  rw [apply_ite (State.setWcnt w)]
  rfl

theorem engineNext_setWcnt (i : Instr) (w : Nat) {s : State} (h : s.params.readyTimeout = none) :
    ∃ w', engineNext i (s.setWcnt w) = (engineNext i s).setWcnt w' := by
  cases i with
  | poll =>
    simp only [engineNext, State.afterDraw_setWcnt, State.dout_setWcnt]
    exact pollWith_setWcnt s.dout w (by simpa using h)
  | sample => exact ⟨w, by simp only [engineNext, State.afterDraw_setWcnt, State.dout_setWcnt]; rfl⟩
  | finish => exact ⟨w, finishNext_setWcnt w s⟩
  | _ => exact ⟨w, rfl⟩

theorem exec_host_setWcnt {i : Instr} (hi : i.isHost = true) {s t : State} (w : Nat) (h : exec i s = .next t) :
    ∃ w', exec i (s.setWcnt w) = .next (t.setWcnt w') := by
  cases i with
  | isReady =>
    cases h
    exact ⟨w, by simp only [exec, execIsReady, State.afterDraw_setWcnt, State.dout_setWcnt]; rfl⟩
  | readRaw =>
    cases h
    obtain ⟨w', he⟩ := startTransaction_setWcnt readRawCount w s
    exact ⟨w', congrArg Host.Outcome.next he⟩
  | readAvg n =>
    by_cases hn : n = 0
    · subst hn; cases h; exact ⟨w, rfl⟩
    · rw [exec_readAvg hn] at h ⊢
      cases h
      obtain ⟨w', he⟩ := startTransaction_setWcnt n w s
      exact ⟨w', congrArg Host.Outcome.next he⟩
  | rdResult | rdRaw | rdCmd | cmdAvgZero | cmdIllegal00 | cmdIllegal11 | wrRo _ _ => cases h; exact ⟨w, rfl⟩
  | poll | rise | sample | fall | xrise | xfall | finish => cases hi

/-- Without READY_TIMEOUT, every operation makes the same of a state with another wait count, but for that count. -/
theorem exec_setWcnt {i : Instr} {s t : State} (w : Nat) (hnone : s.params.readyTimeout = none)
    (h : exec i s = .next t) : ∃ w', exec i (s.setWcnt w) = .next (t.setWcnt w') := by
  cases hi : i.isHost with
  | true => exact exec_host_setWcnt hi w h
  | false =>
    rcases exec_engine_cases hi s with ⟨hp, he⟩ | ⟨_, he⟩ <;> rw [he] at h <;> cases h
    obtain ⟨w', hw⟩ := engineNext_setWcnt i w hnone
    exact ⟨w', by rw [exec_of_decodePhase (s := s.setWcnt w) hp, hw]⟩

/-- Settles O41: the same operation is selected, and it makes the same of both states but for WCNT. -/
theorem waitCountUnusedWithoutTimeout : Obligations.WaitCountUnusedWithoutTimeout := by
  intro s t w hnone h
  change ∃ w', step (s.setWcnt w) = .next (t.setWcnt w')
  cases hs : s.select with
  | run i =>
    rw [step_of_select_run hs] at h
    rw [step_of_select_run ((State.select_setWcnt w s).trans hs), State.advance_setWcnt]
    exact exec_setWcnt w (by simpa using hnone) h
  | reset =>
    refine ⟨0, ?_⟩
    simp only [step, hs, State.select_setWcnt, State.advance_setWcnt] at h ⊢
    cases h
    rfl
  | unsupported why => simp [step, hs] at h

end Sys2Proof.Machine
end

section
/-! The statements of 20_memory.md on single bus accesses: which are supported (rule R35), what they leave of a transaction
in flight (rules R39, R78, R87), and what a read or a read-only write shows (rules R38, R42, R89). -/

namespace Sys2Proof

/-- The four offsets at which a register stands (rule R33). -/
theorem Reg.exists_offset_eq_iff (off : Nat) :
    (∃ reg : Reg, reg.offset = off) ↔ off = 0x00 ∨ off = 0x04 ∨ off = 0x08 ∨ off = 0x0C := by
  constructor
  · rintro ⟨reg, rfl⟩
    cases reg <;> simp [Reg.offset]
  · rintro (rfl | rfl | rfl | rfl)
    · exact ⟨.cmd, rfl⟩
    · exact ⟨.status, rfl⟩
    · exact ⟨.result, rfl⟩
    · exact ⟨.raw, rfl⟩

/-- An access decodes exactly when it is an aligned 32-bit access to the window (rule R35). -/
theorem decodeAccess_ok_iff_aligned (base : Nat) (a : Access) :
    (∃ i, decodeAccess base a = .ok i) ↔
      a.size = 4 ∧ ∃ off, (off = 0x00 ∨ off = 0x04 ∨ off = 0x08 ∨ off = 0x0C) ∧ a.addr = base + off := by
  simp only [decodeAccess_eq_ok_iff, ← Reg.exists_offset_eq_iff]
  constructor
  · rintro ⟨_, reg, hsize, haddr, _⟩
    exact ⟨hsize, reg.offset, ⟨reg, rfl⟩, haddr⟩
  · rintro ⟨hsize, _, ⟨reg, rfl⟩, haddr⟩
    exact ⟨_, reg, hsize, haddr, rfl⟩

end Sys2Proof

namespace Sys2Proof.Machine

open Sys2Proof.Safety

/-- A bus access selects host operations only. -/
theorem decodeAccess_isHost {base : Nat} {a : Access} {i : Instr} (h : decodeAccess base a = .ok i) : i.isHost = true := by
  obtain ⟨reg, _, _, rfl⟩ := (decodeAccess_eq_ok_iff ..).1 h
  exact decodeTransaction_isHost ..

/-- Settles O7: an access that decodes is a host operation, which always completes, and one that does not is refused. -/
theorem onlyAlignedWordAccessesRun : Obligations.OnlyAlignedWordAccessesRun := by
  intro s a rest ht
  rw [← decodeAccess_ok_iff_aligned]
  constructor
  · rintro ⟨i, hd⟩
    have hhost := decodeAccess_isHost hd
    have hstep := step_of_access ht hd
    obtain ⟨t, hexec⟩ := exec_host_next hhost { s with turns := rest }
    exact ⟨i, t, (decode_access_eq_ok_iff ..).2 hd, hhost, hstep, hstep.trans hexec⟩
  · intro hnone
    cases hd : decodeAccess s.params.base a with
    | ok i => exact absurd ⟨i, hd⟩ hnone
    | error why => exact ⟨why, step_of_unsupported ht hd⟩

/-- Settles O37: while a transaction is in flight no command is accepted, so a host operation writes REJECT at most. -/
theorem hostNeverDisturbsTransaction : Obligations.HostNeverDisturbsTransaction := by
  intro s t a rest ht hbusy h
  refine ⟨?_, parametersNeverChange s t h⟩
  cases hd : decodeAccess s.params.base a with
  | ok i =>
    rw [step_of_access ht hd] at h
    exact exec_host_frame (s := { s with turns := rest }) (decodeAccess_isHost hd) (fun ⟨hidle, _⟩ => hbusy hidle) h
  | error why =>
    rw [step_of_unsupported ht hd] at h
    cases h

/-- An accepted command leads to rule R79's common start. -/
theorem step_of_accepted_access {s : State} {a : Access} {rest : List Turn} {i : Instr} (ht : s.turns = .host a :: rest)
    (hd : decodeAccess s.params.base a = .ok i) (ha : accepts i s) :
    ∃ n, n ≠ 0 ∧ step s = .next (({ s with turns := rest } : State).accept n) := by
  obtain ⟨n, hn, hexec⟩ := exec_of_accepts (s := { s with turns := rest }) ha
  exact ⟨n, hn, (step_of_access ht hd).trans hexec⟩

/-- A STATUS read returns a word whose bit 0 is BUSY (rules R28, R54, R80). -/
theorem step_of_status_read {s : State} {rest : List Turn}
    (ht : s.turns = .host (readAccess s.params.base .status) :: rest) :
    ∃ t w, step s = .next t ∧ t.returned = w :: s.returned ∧ w.getLsbD 0 = s.busy ∧ t.turns = rest := by
  obtain ⟨hbusy, _⟩ := statusWord_bits { s with turns := rest } s.dout
  refine ⟨_, _, step_of_access ht (decodeAccess_readAccess ..), ?_, hbusy, by simp⟩
  rw [State.returnWord_returned, State.afterDraw_returned]
  rfl

/-- Settles O58: acceptance leads to WAIT, where BUSY is 1, and the next access reads STATUS there. -/
theorem busyRightAfterAcceptance : Obligations.BusyRightAfterAcceptance := by
  intro s a rest i haccepts hdecode ht
  obtain ⟨n, _, hcommand⟩ := step_of_accepted_access ht ((decode_access_eq_ok_iff ..).1 hdecode) haccepts
  obtain ⟨t, w, hread, hreturned, hbusy, hturns⟩ :=
    step_of_status_read (s := State.accept n { s with turns := .host (readAccess s.params.base .status) :: rest }) rfl
  exact ⟨t, w, by rw [run_succ_of_next hcommand, run_succ_of_next hread, run_zero], hreturned, hbusy, hturns⟩

/-- Settles O24: RD_CMD answers the word 0, and WR_RO the state it met. -/
theorem cmdReadAndReadOnlyWritesDoNothing : Obligations.CmdReadAndReadOnlyWritesDoNothing := by
  intro s reg data
  have hread : exec .rdCmd s = .next (s.returnWord 0) := rfl
  have hwrite : exec (.wrRo reg data) s = .next s := rfl
  exact ⟨hread, hwrite⟩

end Sys2Proof.Machine
end

section
/-! One whole read of the engine (rules R60 to R75), turn by turn: the wait, the data pulses, the extra pulse and the
decode; and the READ_RAW that consists of one (20_memory.md rule R37). -/

namespace Sys2Proof.Machine

open Sys2Proof.Safety

/-! ## Bits read most significant first -/

/-- The bits read so far stay below the power of two of their number. -/
theorem msbFirst_lt (bits : List Level) : msbFirst bits < 2 ^ bits.length := by
  induction bits with
  | nil => simp [msbFirst]
  | cons d ds ih =>
    have hd : d.toNat * 2 ^ ds.length ≤ 2 ^ ds.length := mul_le_of_le_one_left (Nat.zero_le _) d.toNat_le
    simp only [msbFirst, List.length_cons, pow_succ]
    omega

/-- The `j`-th bit read is the `j`-th from the top (rule R37). -/
theorem testBit_msbFirst {bits : List Level} {j : Nat} (hj : j < bits.length) :
    (msbFirst bits).testBit (bits.length - 1 - j) = bits.getD j false := by
  induction bits generalizing j with
  | nil => simp at hj
  | cons d ds ih =>
    rw [msbFirst, Nat.mul_comm, Nat.testBit_two_pow_mul_add _ (msbFirst_lt ds)]
    cases j with
    | zero => cases d <;> simp
    | succ j =>
      have hj' : j < ds.length := by simpa using hj
      rw [List.length_cons, show ds.length + 1 - 1 - (j + 1) = ds.length - 1 - j by omega, if_pos (by omega), ih hj']
      rfl

/-- RAW's bit 23 − j is the `j`-th of the 24 levels sampled (rule R37). -/
theorem getLsbD_rawOf {bits : List Level} (hlen : bits.length = 24) {j : Nat} (hj : j < 24) :
    (rawOf bits).getLsbD (23 - j) = bits.getD j false := by
  have hbit := testBit_msbFirst (hlen ▸ hj)
  rw [hlen] at hbit
  rw [rawOf, BitVec.getLsbD_ofNat, ← hbit]
  simp [show 23 - j < 24 by omega]

/-- SAMPLE doubles ACC and adds the bit, modulo 2^24 (rule R69). -/
theorem toNat_shiftIn (acc : Raw24) (d : Level) : (shiftIn acc d).toNat = (2 * acc.toNat + d.toNat) % 2 ^ 24 := by
  have hkept : (acc.extractLsb' 0 23).toNat = acc.toNat % 2 ^ 23 := by simp
  have hbit : (BitVec.ofBool d).toNat = d.toNat := BitVec.toNat_ofBool d
  have hlt := d.toNat_lt
  rw [shiftIn, BitVec.toNat_append, hkept, hbit, ← Nat.shiftLeft_add_eq_or_of_lt (by omega), Nat.shiftLeft_eq]
  omega

theorem shiftIn_eq (acc : Raw24) (d : Level) : shiftIn acc d = acc * 2 + (d.toNat : Raw24) := by
  apply BitVec.eq_of_toNat_eq
  rw [toNat_shiftIn]
  simp [Nat.mul_comm]

/-- Bits sampled one after the other are what `msbFirst` makes of them (rules R37, R69). -/
theorem foldl_shiftIn (acc : Raw24) (bits : List Level) :
    bits.foldl shiftIn acc = acc * 2 ^ bits.length + (msbFirst bits : Raw24) := by
  induction bits generalizing acc with
  | nil => simp [msbFirst]
  | cons d ds ih =>
    rw [List.foldl_cons, ih, shiftIn_eq, msbFirst, List.length_cons]
    push_cast
    ring

/-- A cleared ACC ends as the raw shift result of the bits (rule R12). -/
theorem foldl_shiftIn_zero (bits : List Level) : bits.foldl shiftIn 0 = rawOf bits := by
  simp [foldl_shiftIn, rawOf]

/-! ## The engine's turns against listed levels -/

/-- `s` with the levels `line` and the turns `turns` still to come. -/
def State.facing (line : List Level) (turns : List Turn) (s : State) : State := { s with line := line, turns := turns }

/-- The engine's turn runs the step that PHASE names. -/
theorem run_engine {s : State} {i : Instr} (hp : decodePhase s.phase = some i) (k : Nat) (line : List Level)
    (turns : List Turn) :
    run (k + 1) (s.facing line (.engine :: turns)) = run k (engineNext i (s.facing line turns)) :=
  run_succ_of_next ((step_of_engine (s := s.facing line (.engine :: turns)) rfl hp).trans
    (exec_of_decodePhase (s := s.facing line turns) hp))

theorem pollWith_facing (d : Level) (line : List Level) (turns : List Turn) (s : State) :
    pollWith d (s.facing line turns) = (pollWith d s).facing line turns := by
  cases d with
  | false => rfl
  | true =>
    simp only [pollWith, State.facing]
    cases s.params.readyTimeout with
    | none => rfl
    | some k => by_cases hk : s.wcnt + 1 ≥ k <;> simp [hk, State.timeOut]

theorem finishNext_facing (line : List Level) (turns : List Turn) (s : State) :
    finishNext (s.facing line turns) = (finishNext s).facing line turns := by
  unfold finishNext
  rw [apply_ite (State.facing line turns)]
  rfl

/-- A POLL of a listed level. -/
theorem run_poll {s : State} (hp : s.phase = .wait) (k : Nat) (d : Level) (line : List Level) (turns : List Turn) :
    run (k + 1) (s.facing (d :: line) (.engine :: turns)) = run k ((pollWith d s).facing line turns) := by
  rw [run_engine (i := .poll) (by rw [hp]; rfl), ← pollWith_facing]
  rfl

/-! ## The wait -/

/-- The wait can see `waits` more levels HIGH before the ready timeout ends it (rule R66). -/
def State.allows (waits : Nat) (s : State) : Prop := ∀ k, s.params.readyTimeout = some k → s.wcnt + waits < k

/-- A POLL that sees an allowed HIGH counts at most, and one level fewer is allowed after it (rule R66). -/
theorem pollWith_true_of_allows {s : State} {waits : Nat} (h : s.allows (waits + 1)) :
    ∃ w, pollWith true s = s.setWcnt w ∧ (s.setWcnt w).allows waits := by
  rcases pollWith_cases true s with ⟨hd, _⟩ | ⟨_, hnone, he⟩ | ⟨k, _, hk, hle, _⟩ | ⟨k, _, _, _, he⟩
  · cases hd
  · exact ⟨s.wcnt, he, fun k hk => absurd (hnone.symm.trans hk) nofun⟩
  · have := h k hk
    omega
  · exact ⟨s.wcnt + 1, he, fun k hk => (show s.wcnt + 1 + waits < k by have := h k hk; omega)⟩

/-- Levels HIGH that the ready timeout allows, and then LOW, lead to the first data pulse (rule R66). -/
theorem run_wait {s : State} {waits : Nat} (hp : s.phase = .wait)
    (htime : s.allows waits) (line : List Level) (turns : List Turn) :
    run (waits + 1)
        (s.facing (List.replicate waits true ++ false :: line) (List.replicate (waits + 1) Turn.engine ++ turns)) =
      .next (State.facing line turns { s with wcnt := 0, phase := .rise }) := by
  induction waits generalizing s with
  | zero => exact run_poll hp 0 false line turns
  | succ waits ih =>
    obtain ⟨w, hpoll, hleft⟩ := pollWith_true_of_allows htime
    rw [List.replicate_succ, List.replicate_succ, List.cons_append, List.cons_append, run_poll hp, hpoll,
      ih (s := s.setWcnt w) hp hleft]
    rfl

/-! ## The pulses -/

/-- One data pulse: the clock goes up, the level `d` is sampled, the clock goes down (rules R68 to R70). -/
def pulse (d : Level) (s : State) : State := fallNext (sampleWith d ((s.setSck true).setPhase .sample))

theorem pulse_eq (d : Level) (s : State) : pulse d s =
    { s with
      sck := false
      bitcnt := s.bitcnt + 1
      acc := shiftIn s.acc d
      phase := if s.bitcnt + 1 = 24 then .xrise else .rise } := rfl

theorem run_pulse {s : State} (hp : s.phase = .rise) (k : Nat) (d : Level) (line : List Level) (turns : List Turn) :
    run (k + 3) (s.facing (d :: line) (.engine :: .engine :: .engine :: turns)) =
      run k ((pulse d s).facing line turns) := by
  rw [run_engine (i := .rise) (by rw [hp]; rfl)]
  exact (run_engine (s := (s.setSck true).setPhase .sample) rfl (k + 1) (d :: line) (.engine :: turns)).trans
    (run_engine (s := sampleWith d ((s.setSck true).setPhase .sample)) rfl k line turns)

/-- The data pulses that are left sample the bits that are left (rules R60, R69, R70). -/
theorem run_pulses {s : State} {bits : List Level} (hp : s.phase = .rise) (hne : bits ≠ [])
    (hcount : s.bitcnt.toNat + bits.length = 24) (line : List Level) (turns : List Turn) :
    run (3 * bits.length) (s.facing (bits ++ line) (List.replicate (3 * bits.length) Turn.engine ++ turns)) =
      .next (State.facing line turns
        { s with sck := false, bitcnt := 24, acc := bits.foldl shiftIn s.acc, phase := .xrise }) := by
  induction bits generalizing s with
  | nil => exact absurd rfl hne
  | cons d ds ih =>
    rw [List.length_cons] at hcount
    rw [List.length_cons, Nat.mul_add_one]
    simp only [List.replicate_succ, List.cons_append]
    rw [run_pulse hp]
    cases ds with
    | nil =>
      have hlast : s.bitcnt + 1 = 24 := by simp at hcount; bv_omega
      rw [pulse_eq, if_pos hlast, hlast]
      rfl
    | cons d' ds =>
      rw [List.length_cons] at hcount
      have hmore : s.bitcnt + 1 ≠ 24 := by bv_omega
      rw [pulse_eq, if_neg hmore, ih rfl (by simp) (by simp; bv_omega)]
      rfl

/-- The extra pulse and the decode (rules R71 to R73). -/
theorem run_extra_pulse {s : State} (hp : s.phase = .xrise) (line : List Level) (turns : List Turn) :
    run 3 (s.facing line (List.replicate 3 Turn.engine ++ turns)) =
      .next (State.facing line turns (finishNext { s with sck := false, phase := .finish })) := by
  refine (run_engine (i := .xrise) (by rw [hp]; rfl) 2 line _).trans ?_
  refine (run_engine (s := (s.setSck true).setPhase .xfall) rfl 1 line _).trans ?_
  refine (run_engine (s := ((s.setSck true).setSck false).setPhase .finish) rfl 0 line _).trans ?_
  exact congrArg _ (finishNext_facing ..)

/-! ## One whole read -/

/-- What FINISH meets at the end of a read that sampled `bits`. -/
def State.transferred (bits : List Level) (s : State) : State :=
  { s with sck := false, phase := .finish, bitcnt := 24, acc := rawOf bits, wcnt := 0 }

/-- One read from a cleared wait: p + 75 engine steps lead to what FINISH makes of its 24 bits (rule R74). -/
theorem run_read {s : State} {r : DeviceRead} (hp : s.phase = .wait) (hbitcnt : s.bitcnt = 0) (hacc : s.acc = 0)
    (htime : r.inTime s.params s.wcnt) (hlen : r.bits.length = 24) (line : List Level) (turns : List Turn) :
    run r.steps (s.facing (r.levels ++ line) (List.replicate r.steps Turn.engine ++ turns)) =
      .next ((finishNext (s.transferred r.bits)).facing line turns) := by
  have hne : r.bits ≠ [] := fun h => by simp [h] at hlen
  have hsteps : r.steps = (r.waits + 1) + (3 * r.bits.length + 3) := by rw [hlen]; rfl
  have hlevels : r.levels ++ line = List.replicate r.waits true ++ false :: (r.bits ++ line) := by
    simp [DeviceRead.levels]
  have hturns : List.replicate r.steps Turn.engine ++ turns = List.replicate (r.waits + 1) Turn.engine ++
      (List.replicate (3 * r.bits.length) Turn.engine ++ (List.replicate 3 Turn.engine ++ turns)) := by
    rw [hsteps, List.replicate_add, List.replicate_add (3 * r.bits.length), List.append_assoc, List.append_assoc]
  rw [hlevels, hturns, hsteps, run_add (run_wait hp htime ..),
    run_add (run_pulses rfl hne (by simp [hbitcnt, hlen]) ..), run_extra_pulse rfl]
  simp only [hacc, foldl_shiftIn_zero, State.transferred]

/-- The FINISH of the last read completes the transaction (rule R73). -/
theorem finishNext_of_last {s : State} (h : s.rem = 1) : finishNext s =
    { finishRead s with result := trunc32 (floorDiv (nextSum s) s.n), done := true, phase := .idle } := by
  rcases finishNext_cases s with ⟨_, he⟩ | ⟨hmore, _⟩
  · exact he
  · exact absurd h hmore

/-- A completing FINISH of a single read leaves the decoded sample (rules R73, R88). -/
theorem toInt_mean_of_single {s : State} (hsum : s.sum = 0) (hn : s.n = 1) :
    (trunc32 (floorDiv (nextSum s) s.n)).toInt = decode24 s.acc := by
  have hsample : floorDiv (nextSum s) s.n = decode24 s.acc := by
    obtain ⟨hdiv, _⟩ := floorDiv_eq_ediv (nextSum s) (n := 1) (by decide)
    rw [hn, hdiv]
    simp [nextSum, hsum]
  obtain ⟨hlow, hhigh⟩ := decode24_range s.acc
  rw [hsample, toInt_trunc32 (by omega) (by omega)]

/-! ## READ_RAW -/

/-- READ_RAW in an idle block is accepted for one sample (rules R79, R83). -/
theorem exec_readRaw_of_idle {s : State} (hp : s.phase = .idle) : exec .readRaw s = .next (s.accept 1) := by
  simp [exec, execReadRaw, State.startTransaction, hp, readRawCount]

/-- A word whose OP is 0b01 selects READ_RAW, whatever its other bits (rules R49 to R51). -/
theorem decodeCommand_of_opField_eq_one {w : Word} (h : opField w = 0b01#2) : decodeCommand w = .readRaw := by
  simp [decodeCommand, h]

/-- Settles O52: acceptance starts a cleared wait for one read, and the FINISH of that read is the last one. -/
theorem readRawReturnsDecodedSample : Obligations.ReadRawReturnsDecodedSample := by
  intro s w r line turns hidle _ hop htime hlen hl ht
  have hcommand : step s = .next ((s.accept 1).facing s.line (List.replicate r.steps Turn.engine ++ turns)) := by
    rw [step_of_write ht, decodeTransaction, decodeCommand_of_opField_eq_one hop]
    exact exec_readRaw_of_idle hidle
  have hread := run_read (s := s.accept 1) rfl rfl rfl htime hlen line turns
  rw [finishNext_of_last rfl, ← hl, ← run_succ_of_next hcommand, Nat.add_comm] at hread
  refine ⟨_, hread, rfl, rfl, rfl, rfl, rfl, ?result, rfl, ?bits, rfl, ?rem, rfl, rfl, rfl⟩
  case result => exact toInt_mean_of_single rfl rfl
  case bits => exact fun j hj => getLsbD_rawOf hlen hj
  case rem => exact BitVec.sub_self 1

end Sys2Proof.Machine
end

section
/-! The statements of 30_encoding.md on decoding and encoding (rules R47 to R58): the fields of a command word, what a
command word selects, and that decoder and encoder undo each other but for the ignored bits. -/

namespace Sys2Proof

/-! ## The fields of a command word under the masks of rule R57 -/

/-- Mask 0x00000003 leaves field OP. -/
theorem and_opMask (w : Word) : w &&& 0x00000003 = zext 32 (opField w) := by
  have hmask : ∀ i < 32, (0x00000003 : Word).getLsbD i = decide (i < 2) := by decide
  apply BitVec.eq_of_getLsbD_eq
  intro i hi
  rw [BitVec.getLsbD_and, hmask i hi]
  simp [opField, hi, Bool.and_comm]

/-- Mask 0x0000FF03 leaves fields N and OP. -/
theorem and_commandMask (w : Word) : w &&& 0x0000FF03 = zext 32 (nField w ++ 0b000000#6 ++ opField w) := by
  have hmask : ∀ i < 32, (0x0000FF03 : Word).getLsbD i = (decide (i < 2) || decide (8 ≤ i) && decide (i < 16)) := by
    decide
  apply BitVec.eq_of_getLsbD_eq
  intro i hi
  rw [BitVec.getLsbD_and, hmask i hi]
  rw [BitVec.getLsbD_setWidth, BitVec.getLsbD_append, BitVec.getLsbD_append, opField, nField]
  simp only [BitVec.getLsbD_extractLsb']
  obtain hop | ⟨hlow, hhigh⟩ | ⟨hlow, hhigh⟩ | hreserved :
      i < 2 ∨ (2 ≤ i ∧ i < 8) ∨ (8 ≤ i ∧ i < 16) ∨ 16 ≤ i := by omega
  · simp [hop, hi]
  · simp [show ¬ i ≤ 1 by omega, show ¬ 8 ≤ i by omega, show i - 2 < 6 by omega]
  · simp [hi, hlow, hhigh, show ¬ i ≤ 1 by omega, show ¬ i - 2 < 6 by omega, show i - 2 - 6 < 8 by omega,
      show 8 + (i - 2 - 6) = i by omega]
  · simp [show ¬ i ≤ 1 by omega, show ¬ i < 16 by omega, show ¬ i - 2 - 6 < 8 by omega]

@[simp] theorem opField_and_commandMask (w : Word) : opField (w &&& 0x0000FF03) = opField w := by
  rw [opField, BitVec.extractLsb'_and]
  exact BitVec.and_allOnes

@[simp] theorem nField_and_commandMask (w : Word) : nField (w &&& 0x0000FF03) = nField w := by
  rw [nField, BitVec.extractLsb'_and]
  exact BitVec.and_allOnes

/-- The match of the CMD_AVG_ZERO row: OP = 0b10 and N = 0. -/
theorem and_commandMask_eq_avgZero_iff (w : Word) :
    w &&& 0x0000FF03 = 0x00000002 ↔ opField w = 0b10#2 ∧ nField w = 0 := by
  constructor
  · intro h
    rw [← opField_and_commandMask, ← nField_and_commandMask, h]
    exact ⟨rfl, rfl⟩
  · rintro ⟨hop, hn⟩
    rw [and_commandMask, hop, hn]
    rfl

/-- Field N as a number: bits 15:8 of the word. -/
theorem toNat_nField (w : Word) : (nField w).toNat = w.toNat / 2 ^ 8 % 2 ^ 8 := by
  rw [nField, BitVec.extractLsb'_toNat, Nat.shiftRight_eq_div_pow]

/-! ## What a command word selects -/

/-- Only fields OP and N select a command (rule R51). -/
theorem decodeCommand_congr {w w' : Word} (hop : opField w' = opField w) (hn : nField w' = nField w) :
    decodeCommand w' = decodeCommand w := by
  rw [decodeCommand, decodeCommand, hop, hn]

theorem decodeCommand_readAvgWord {n : BitVec 8} (hn : n ≠ 0) : decodeCommand (readAvgWord n) = .readAvg n := by
  rw [decodeCommand, opField_readAvgWord, nField_readAvgWord, if_neg hn]
  rfl

/-- Settles O5: the five words of a command, each under the two masks. -/
theorem commandRowsSelectTheirWords : Obligations.CommandRowsSelectTheirWords := by
  intro w
  have hfield (n : BitVec 8) : n.toNat = w.toNat / 2 ^ 8 % 2 ^ 8 ↔ n = nField w := by
    rw [← toNat_nField, BitVec.toNat_inj]
  simp only [and_opMask, and_commandMask_eq_avgZero_iff, hfield]
  rcases decodeCommand_cases w with
    ⟨hop, hd⟩ | ⟨hop, hd⟩ | ⟨hop, hd⟩ | ⟨hop, hn, hd⟩ | ⟨hop, hn, hd⟩
  · simp [hop, hd]
  · simp [hop, hd]
  · simp [hop, hd]
  · simp [hop, hn, hd]
  · have hcount (n : BitVec 8) : nField w = n ↔ n = nField w ∧ n ≠ 0 :=
      ⟨fun h => ⟨h.symm, h ▸ hn⟩, fun ⟨h, _⟩ => h.symm⟩
    simp [hop, hd, hcount]

/-! ## Decoding what was encoded -/

theorem decode_readAccess (base : Nat) (reg : Reg) :
    decode base (.access (readAccess base reg)) = .ok (decodeTransaction .read reg 0) :=
  (decode_access_eq_ok_iff ..).2 (decodeAccess_readAccess ..)

theorem decode_writeAccess (base : Nat) (reg : Reg) (w : Word) :
    decode base (.access (writeAccess base reg w)) = .ok (decodeTransaction .write reg w) :=
  (decode_access_eq_ok_iff ..).2 (decodeAccess_writeAccess ..)

/-- A write to a read-only register is WR_RO of that register (rule R89). -/
theorem decodeTransaction_write_toReg (reg : RoReg) (w : Word) :
    decodeTransaction .write reg.toReg w = .wrRo reg w := by
  cases reg <;> rfl

/-- Settles O2: a read, a write of a command word, a write to a read-only register, or a PHASE value. -/
theorem decodeOfEncodeIsIdentity : Obligations.DecodeOfEncodeIsIdentity := by
  intro base i hwf
  cases i with
  | isReady => exact decode_readAccess base .status
  | rdResult => exact decode_readAccess base .result
  | rdRaw => exact decode_readAccess base .raw
  | rdCmd => exact decode_readAccess base .cmd
  | readRaw => exact decode_writeAccess base .cmd _
  | readAvg n =>
    have hn : n ≠ 0 := by simpa [Instr.wellFormed] using hwf
    rw [encode, decode_writeAccess, decodeTransaction, decodeCommand_readAvgWord hn]
  | cmdAvgZero => exact decode_writeAccess base .cmd _
  | cmdIllegal00 => exact decode_writeAccess base .cmd _
  | cmdIllegal11 => exact decode_writeAccess base .cmd _
  | wrRo reg data => rw [encode, decode_writeAccess, decodeTransaction_write_toReg]
  | poll | rise | sample | fall | xrise | xfall | finish => rfl

/-! ## Encoding what was decoded -/

theorem decodeCommand_wellFormed (w : Word) : (decodeCommand w).wellFormed = true := by
  rcases decodeCommand_cases w with ⟨_, hd⟩ | ⟨_, hd⟩ | ⟨_, hd⟩ | ⟨_, _, hd⟩ | ⟨_, hn, hd⟩
  case inr.inr.inr.inr => simpa [hd, Instr.wellFormed] using hn
  all_goals rw [hd]; rfl

theorem decodeTransaction_wellFormed (dir : Dir) (reg : Reg) (w : Word) :
    (decodeTransaction dir reg w).wellFormed = true := by
  cases dir with
  | read => cases reg <;> rfl
  | write =>
    cases reg with
    | cmd => exact decodeCommand_wellFormed w
    | status | result | raw => rfl

/-- A command word's operation encodes to a word with the same OP and, for OP = 0b10, the same N (rules R49, R51). -/
theorem encode_decodeCommand (base : Nat) (w : Word) :
    ∃ w', encode base (decodeCommand w) = .access (writeAccess base .cmd w') ∧ opField w' = opField w ∧
      (opField w = 0b10#2 → nField w' = nField w) := by
  rcases decodeCommand_cases w with
    ⟨hop, hd⟩ | ⟨hop, hd⟩ | ⟨hop, hd⟩ | ⟨hop, hn, hd⟩ | ⟨hop, hn, hd⟩ <;> rw [hd, hop]
  · exact ⟨_, rfl, rfl, nofun⟩
  · exact ⟨_, rfl, rfl, nofun⟩
  · exact ⟨_, rfl, rfl, nofun⟩
  · exact ⟨_, rfl, rfl, fun _ => hn.symm⟩
  · exact ⟨_, rfl, opField_readAvgWord _, fun _ => nField_readAvgWord _⟩

/-- A transaction's operation encodes to one of the same direction and register; its data word is the encoder's own choice
for a read, agrees on what is not ignored for a command, and is the same for WR_RO. -/
theorem encode_decodeTransaction (base : Nat) (dir : Dir) (reg : Reg) (w : Word) :
    ∃ w', encode base (decodeTransaction dir reg w) = .access ⟨dir, base + reg.offset, 4, w'⟩ ∧
      (dir = .write → reg = .cmd → opField w' = opField w ∧ (opField w = 0b10#2 → nField w' = nField w)) ∧
      (dir = .write → reg ≠ .cmd → w' = w) := by
  cases dir with
  | read => cases reg <;> exact ⟨0, rfl, nofun, nofun⟩
  | write =>
    cases reg with
    | cmd =>
      obtain ⟨w', he, hfields⟩ := encode_decodeCommand base w
      exact ⟨w', he, fun _ _ => hfields, fun _ h => absurd rfl h⟩
    | status | result | raw => exact ⟨w, rfl, nofun, fun _ _ => rfl⟩

/-- CMD alone stands at `BASE` (rule R33). -/
theorem Reg.add_offset_eq_base_iff (base : Nat) (reg : Reg) : base + reg.offset = base ↔ reg = .cmd := by
  cases reg <;> simp [Reg.offset]

theorem encode_of_decodePhase {p : Phase} {i : Instr} (base : Nat) (h : decodePhase p = some i) :
    i.wellFormed = true ∧ encode base i = .phase p := by
  cases p <;> cases h <;> exact ⟨rfl, rfl⟩

/-- Settles O3: PHASE names an operation that names it back, and an access does so through its transaction. -/
theorem encodeOfDecodeKeepsSelector : Obligations.EncodeOfDecodeKeepsSelector := by
  intro base i
  constructor
  · intro p h
    have hp := (decode_phase_eq_ok_iff ..).1 h
    obtain ⟨hwf, hencode⟩ := encode_of_decodePhase base hp
    exact ⟨hwf, Machine.decodePhase_isHost hp, hencode⟩
  · rintro ⟨dir, addr, size, w⟩ h
    obtain ⟨reg, rfl, rfl, rfl⟩ := (decodeAccess_eq_ok_iff ..).1 ((decode_access_eq_ok_iff ..).1 h)
    obtain ⟨w', hencode, hcmd, hro⟩ := encode_decodeTransaction base dir reg w
    refine ⟨decodeTransaction_wellFormed .., Machine.decodeTransaction_isHost .., _, hencode, rfl, rfl, rfl, ?_, ?_⟩
    · exact fun hdir haddr => hcmd hdir ((Reg.add_offset_eq_base_iff ..).1 haddr)
    · exact fun hdir haddr => hro hdir (mt (Reg.add_offset_eq_base_iff ..).2 haddr)

/-- Settles O1: each of them is an access whose direction, offset and word are numerals. -/
theorem writtenTransactionsDecode : Obligations.WrittenTransactionsDecode := by
  unfold Obligations.WrittenTransactionsDecode
  decide

end Sys2Proof

namespace Sys2Proof.Machine

/-! ## Running what was decoded -/

/-- Settles O4: the masked word has the same fields OP and N, so it selects the same command. -/
theorem reservedCommandBitsIgnored : Obligations.ReservedCommandBitsIgnored := by
  intro s w rest
  have hcommand : decodeCommand (w &&& 0x0000FF03) = decodeCommand w :=
    decodeCommand_congr (opField_and_commandMask w) (nField_and_commandMask w)
  rw [step_of_write (s := { s with turns := _ :: rest }) rfl, step_of_write (s := { s with turns := _ :: rest }) rfl,
    decodeTransaction, decodeTransaction, hcommand]

/-- A legal command is never recorded as ILLEGAL (rules R79, R87). -/
theorem startTransaction_reject_ne_illegal (n : BitVec 8) (s : State) : (s.startTransaction n).reject ≠ .illegal := by
  rcases startTransaction_cases n s with ⟨_, he⟩ | ⟨_, he⟩ <;> simp [he]

/-- Settles O6: of the five commands that a word can select, three record ILLEGAL and two start a transaction. -/
theorem illegalCommandsExactly : Obligations.IllegalCommandsExactly := by
  intro s w rest ht
  rw [step_of_write ht, decodeTransaction]
  rcases decodeCommand_cases w with
    ⟨hop, hd⟩ | ⟨hop, hd⟩ | ⟨hop, hd⟩ | ⟨hop, hn, hd⟩ | ⟨hop, hn, hd⟩ <;> rw [hd, hop]
  · exact ⟨fun _ => rfl, fun h => absurd (.inl rfl) h⟩
  · exact ⟨fun _ => rfl, fun h => absurd (.inr (.inl rfl)) h⟩
  · exact ⟨by simp, fun _ => ⟨_, rfl, startTransaction_reject_ne_illegal _ _⟩⟩
  · exact ⟨fun _ => rfl, fun h => absurd (.inr (.inr ⟨rfl, hn⟩)) h⟩
  · exact ⟨fun h => absurd h (by simpa using hn),
      fun _ => ⟨_, exec_readAvg hn _, startTransaction_reject_ne_illegal _ _⟩⟩

/-- A table word that decodes has at most 32 bits, and its access is a write of it to CMD (log 9). -/
theorem tableAccess_of_decodeTableWord {nbits w : Nat} {i : Instr} (h : decodeTableWord nbits w = some i) :
    ∃ data, decodeCommand data = i ∧ ∀ base, tableAccess base nbits w = writeAccess base .cmd data := by
  have hd : decodeAccess 0 (tableAccess 0 nbits w) = .ok i := by
    unfold decodeTableWord at h
    split at h
    · cases h; assumption
    · cases h
  by_cases hle : nbits ≤ 32
  · have ha (base : Nat) : tableAccess base nbits w = writeAccess base .cmd (BitVec.ofNat 32 (w % 2 ^ nbits)) := by
      rw [tableAccess, if_pos hle, writeAccess]
    rw [ha, decodeAccess_writeAccess] at hd
    cases hd
    exact ⟨_, rfl, ha⟩
  · obtain ⟨reg, hsize, _⟩ := (decodeAccess_eq_ok_iff ..).1 hd
    simp only [tableAccess, if_neg hle] at hsize
    omega

/-- Settles O9: the access laid before the machine is a write to CMD, and taking its turn away gives the state back. -/
theorem fetchWordRunsDecodedWord : Obligations.FetchWordRunsDecodedWord := by
  intro s nbits w i h
  obtain ⟨data, rfl, ha⟩ := tableAccess_of_decodeTableWord h
  rw [State.withFetchWord, ha]
  exact step_of_write (s := s.offer (writeAccess s.params.base .cmd data)) rfl

end Sys2Proof.Machine
end

section
/-! The statements of 30_encoding.md on the words that the host's reads return: STATUS (rule R54), RESULT (rule R55) and
RAW (rule R56). -/

namespace Sys2Proof.Machine

open Sys2Proof.Safety

/-- The bits of the STATUS word that no field has (rule R54). -/
theorem statusWord_reserved_bits (s : State) (d : Level) {j : Nat} (hj : j = 6 ∨ j = 7 ∨ 9 ≤ j) :
    (s.statusWord d).getLsbD j = false := by
  rw [State.statusWord, BitVec.getLsbD_setWidth]
  rcases hj with rfl | rfl | hj
  · simp only [BitVec.getLsbD_append]; simp
  · simp only [BitVec.getLsbD_append]; simp
  · rw [BitVec.getLsbD_of_ge _ _ hj, Bool.and_false]

/-- After reset every field of STATUS but READY is 0 (rules R54, R116). -/
theorem statusWord_of_start {s : State} (hstart : Start s) (d : Level) {j : Nat} (hj : j ≠ 1) :
    (s.statusWord d).getLsbD j = false := by
  obtain ⟨_, hreset⟩ := hstart
  have hword : s.statusWord d = State.reset.statusWord d := by rw [hreset]; rfl
  obtain ⟨h0, _, h2, h3, h4, h5, h8⟩ := statusWord_bits State.reset d
  rw [hword]
  rcases (by omega : j = 0 ∨ j = 2 ∨ j = 3 ∨ j = 4 ∨ j = 5 ∨ j = 8 ∨ (j = 6 ∨ j = 7 ∨ 9 ≤ j)) with
    rfl | rfl | rfl | rfl | rfl | rfl | hj
  · exact h0
  · exact h2
  · exact h3
  · exact h4
  · exact h5
  · exact h8
  · exact statusWord_reserved_bits _ _ hj

/-- Settles O21: the word is the STATUS word for the level drawn, whose bits are known one by one. -/
theorem statusReadReturnsFields : Obligations.StatusReadReturnsFields := by
  intro s
  obtain ⟨hbusy, hready, hdone, htimeout, hreject0, hreject1, hsck⟩ := statusWord_bits s s.dout
  refine ⟨s.statusWord s.dout, ?read, ?busy, ?ready, ?done, ?timeout, ?none, ?illegal, ?rejectBusy, ?sck,
    fun j hj => statusWord_reserved_bits s _ hj, fun hstart j hj => statusWord_of_start hstart _ hj, fun _ => rfl⟩
  case read =>
    rw [← State.afterDraw_returned]
    rfl
  case busy => rw [hbusy, State.busy, bne_iff_ne]
  case ready => rw [hready, Bool.not_eq_true']
  case done => rw [hdone]
  case timeout => rw [htimeout]
  case none => intro h; rw [hreject1, hreject0, h]; decide
  case illegal => intro h; rw [hreject1, hreject0, h]; decide
  case rejectBusy => intro h; rw [hreject1, hreject0, h]; decide
  case sck => rw [hsck]

/-- A word in the sample range is `sext_32` of a 24-bit value (rules R55, R91). -/
theorem signExtend_of_sample_range {x : Word} (h : -2 ^ 23 ≤ x.toInt ∧ x.toInt ≤ 2 ^ 23 - 1) :
    (BitVec.ofInt 24 x.toInt).signExtend 32 = x := by
  have hint : (BitVec.ofInt 24 x.toInt).toInt = x.toInt := by
    rw [BitVec.toInt_ofInt, Int.bmod]
    omega
  rw [BitVec.signExtend, hint, BitVec.ofInt_toInt]

/-- Above bit 23 of the value `sext_32` repeats it (rule R9). -/
theorem getLsbD_signExtend_sign (x : Raw24) {j : Nat} (h23 : 23 ≤ j) (h31 : j ≤ 31) :
    (x.signExtend 32).getLsbD j = x.msb := by
  rw [BitVec.getLsbD_signExtend, BitVec.msb_eq_getLsbD_last]
  split
  · simp [show j = 23 by omega]
  · simp; omega

/-- Settles O22: RESULT is its own two's-complement word, in the sample range where the invariant holds. -/
theorem resultReadReturnsResult : Obligations.ResultReadReturnsResult := by
  intro s
  rw [BitVec.ofInt_toInt]
  refine ⟨rfl, ?bits, ?start⟩
  case bits =>
    intro hinv j h23 h31
    rw [← signExtend_of_sample_range hinv.result_range, getLsbD_signExtend_sign _ h23 h31,
      getLsbD_signExtend_sign _ (by decide) (by decide)]
  case start =>
    rintro ⟨_, hreset⟩
    rw [hreset]
    rfl

/-- Settles O23: zero extension keeps the value of RAW, and leaves no bit above it. -/
theorem rawReadReturnsRaw : Obligations.RawReadReturnsRaw := by
  intro s
  refine ⟨zext 32 s.raw, rfl, ?value, ?above, ?start⟩
  case value => exact BitVec.toNat_setWidth_of_le (by decide)
  case above =>
    intro j hj
    rw [BitVec.getLsbD_setWidth, BitVec.getLsbD_of_ge _ _ hj, Bool.and_false]
  case start =>
    rintro ⟨_, hreset⟩
    rw [hreset]
    rfl

end Sys2Proof.Machine
end

section
/-! The averaged read of 30_encoding.md (rules R49, R58) as a whole transaction: reads one after the other, each waiting for
ready on its own, and the floor mean that the last FINISH leaves (rules R64, R74, R84, R93). -/

namespace Sys2Proof.Safety.Inv

open Sys2Proof.Machine

/-- The invariant where FINISH is due after a read that waited in this state: the transfer moves the bits, BITCNT and the
clock alone (rules R60, R66 to R72). -/
theorem transfer {s : State} (hinv : Inv s) (hp : s.phase = .wait) (bits : List Level) :
    Inv (s.transferred bits) :=
  { hinv with
    sck_high_iff := by simp [State.transferred]
    cleared := by simp [State.transferred]
    before_sample := by simp [State.transferred]
    after_sample := by simp [State.transferred]
    transferred := fun _ => rfl
    in_flight := fun _ => hinv.in_flight (by simp [hp])
    wait_count := fun _ => hinv.readyTimeout_pos }

end Sys2Proof.Safety.Inv

namespace Sys2Proof.Machine

open Sys2Proof.Safety

/-! ## Between two reads of an averaged read -/

/-- A transaction of `n` reads under the parameters `p`, about to wait for the first of the `left` reads that remain, with
`total` summed so far (rules R64, R73, R79). -/
structure BetweenReads (p : Config.Params) (n : BitVec 8) (left : Nat) (total : Int) (s : State) : Prop where
  inv : Inv s
  params : s.params = p
  phase : s.phase = .wait
  wcnt : s.wcnt = 0
  n : s.n = n
  rem : s.rem.toNat = left
  sum : s.sum.toInt = total
  reject : s.reject = .none

namespace BetweenReads

variable {p : Config.Params} {n : BitVec 8} {left : Nat} {total : Int} {s : State}

/-- Acceptance leaves all `n` reads to do and nothing summed (rule R79). -/
theorem accept (hinv : Inv s) (hidle : s.phase = .idle) (hn : n ≠ 0) :
    BetweenReads s.params n n.toNat 0 (s.accept n) :=
  { inv := hinv.accept hidle hn
    params := rfl
    phase := rfl
    wcnt := rfl
    n := rfl
    rem := rfl
    sum := rfl
    reject := rfl }

/-- A read that is not the last adds its sample and leads to the next read's wait (rules R64, R73). -/
theorem next_read (h : BetweenReads p n (left + 2) total s) (r : DeviceRead) :
    BetweenReads p n (left + 1) (total + r.sample) (finishNext (s.transferred r.bits)) := by
  have hinv := h.inv.transfer h.phase r.bits
  have hrem := h.rem
  have hmore : s.rem ≠ 1 := by bv_omega
  have hleft : (s.rem - 1).toNat = left + 1 := by bv_omega
  rcases finishNext_cases (s.transferred r.bits) with ⟨hlast, _⟩ | ⟨_, he⟩
  · exact absurd hlast hmore
  · have hfinish := hinv.finish rfl
    rw [he] at hfinish ⊢
    exact {
      inv := hfinish
      params := h.params
      phase := rfl
      wcnt := rfl
      n := h.n
      rem := hleft
      sum := (hinv.toInt_nextSum rfl).trans (congrArg (· + r.sample) h.sum)
      reject := h.reject }

/-- One read, ready in time (rule R74). -/
theorem run_one_read (h : BetweenReads p n left total s) {r : DeviceRead} (htime : r.inTime p 0) (hlen : r.bits.length = 24)
    (line : List Level) (turns : List Turn) :
    run r.steps (s.facing (r.levels ++ line) (List.replicate r.steps Turn.engine ++ turns)) =
      .next ((finishNext (s.transferred r.bits)).facing line turns) := by
  obtain ⟨hbitcnt, hacc⟩ := h.inv.cleared (.inr h.phase)
  exact run_read h.phase hbitcnt hacc (by rwa [h.params, h.wcnt]) hlen line turns

/-- All reads but the last lead to the last one's wait, with their samples summed (rules R64, R74). -/
theorem run_reads {reads : List DeviceRead} (h : BetweenReads p n (reads.length + 1) total s)
    (htime : ∀ r ∈ reads, r.inTime p 0) (hlen : ∀ r ∈ reads, r.bits.length = 24)
    (line : List Level) (turns : List Turn) :
    ∃ t, run (reads.map DeviceRead.steps).sum (s.facing (reads.flatMap DeviceRead.levels ++ line)
          (List.replicate (reads.map DeviceRead.steps).sum Turn.engine ++ turns)) = .next (t.facing line turns) ∧
      BetweenReads p n 1 (total + (reads.map DeviceRead.sample).sum) t := by
  induction reads generalizing total s with
  | nil => exact ⟨s, rfl, by simpa using h⟩
  | cons r reads ih =>
    obtain ⟨hrtime, htime⟩ := List.forall_mem_cons.1 htime
    obtain ⟨hrlen, hlen⟩ := List.forall_mem_cons.1 hlen
    obtain ⟨t, hrun, ht⟩ := ih (h.next_read r) htime hlen
    refine ⟨t, ?_, by simpa [add_assoc] using ht⟩
    simp only [List.map_cons, List.sum_cons, List.flatMap_cons, List.replicate_add, List.append_assoc]
    rw [run_add (h.run_one_read hrtime hrlen ..), hrun]

/-- The mean that the FINISH of the last read leaves is exact (rules R73, R93). -/
theorem toInt_mean (h : BetweenReads p n 1 total s) (r : DeviceRead) :
    (trunc32 (floorDiv (nextSum (s.transferred r.bits)) s.n)).toInt = Int.fdiv (total + r.sample) n.toNat := by
  have hrem : s.rem = 1 := BitVec.eq_of_toNat_eq h.rem
  have hsum : nextSum (s.transferred r.bits) = total + r.sample := congrArg (· + r.sample) h.sum
  obtain ⟨hlow, hhigh⟩ : -2 ^ 23 ≤ floorDiv (nextSum (s.transferred r.bits)) s.n ∧
      floorDiv (nextSum (s.transferred r.bits)) s.n ≤ 2 ^ 23 - 1 :=
    (h.inv.transfer h.phase r.bits).mean_range rfl hrem
  obtain ⟨_, hle, _, _, _⟩ := h.inv.in_flight (by simp [h.phase])
  have hn : s.n ≠ 0 := fun h0 => by simp [h0, hrem] at hle
  rw [toInt_trunc32 (by omega) (by omega), hsum, floorDiv, if_neg hn, h.n]

end BetweenReads

/-! ## READ_AVG -/

/-- A word whose OP is 0b10 and whose N is not 0 selects READ_AVG of N samples (rules R49 to R51). -/
theorem decodeCommand_of_opField_eq_two {w : Word} (h : opField w = 0b10#2) (hn : nField w ≠ 0) :
    decodeCommand w = .readAvg (nField w) := by
  simpa [decodeCommand, h] using hn

/-- A write of such a word in an idle block is accepted for N samples (rules R79, R84). -/
theorem step_of_readAvg_write {s : State} {w : Word} {turns : List Turn}
    (ht : s.turns = .host (writeAccess s.params.base .cmd w) :: turns) (hidle : s.phase = .idle)
    (hop : opField w = 0b10#2) (hn : nField w ≠ 0) :
    step s = .next ((s.accept (nField w)).facing s.line turns) := by
  rw [step_of_write ht, decodeTransaction, decodeCommand_of_opField_eq_two hop hn, exec_readAvg hn,
    State.startTransaction, if_neg (by simp [hidle])]
  rfl

/-- Settles O53: acceptance starts the first of N waits, each read but the last adds its sample, and the FINISH of the last
one divides the sum by N. -/
theorem readAvgReturnsFloorMean : Obligations.ReadAvgReturnsFloorMean := by
  intro s w reads last line turns hidle hinv hop htime hcount hlen hl ht
  obtain ⟨hreads, hlast⟩ := List.forall_mem_append.1 htime
  obtain ⟨hreadsLen, hlastLen⟩ := List.forall_mem_append.1 hlen
  simp only [List.map_append, List.sum_append, List.flatMap_append, List.map_singleton, List.sum_singleton,
    List.flatMap_singleton, List.append_assoc, List.replicate_add, List.length_append, List.length_singleton]
    at hcount hl ht ⊢
  have hn : nField w ≠ 0 := fun h => by simp [h] at hcount
  have hstart := BetweenReads.accept hinv hidle hn
  rw [← hcount] at hstart
  obtain ⟨t, hrun, hbetween⟩ := hstart.run_reads hreads hreadsLen (last.levels ++ line)
    (List.replicate last.steps Turn.engine ++ turns)
  rw [zero_add] at hbetween
  have hrem : t.rem = 1 := BitVec.eq_of_toNat_eq hbetween.rem
  have hfinish := hbetween.run_one_read (hlast last (by simp)) (hlastLen last (by simp)) line turns
  rw [finishNext_of_last (s := t.transferred last.bits) hrem, ← run_add hrun, ← hl,
    ← run_succ_of_next (step_of_readAvg_write ht hidle hop hn), Nat.add_comm] at hfinish
  obtain ⟨_, _, _, _, htimeout⟩ := hbetween.inv.in_flight (by simp [hbetween.phase])
  refine ⟨_, hfinish, rfl, rfl, htimeout, hbetween.reject, rfl, ?mean, rfl, hbetween.n, ?rem, rfl, rfl⟩
  case mean => exact hbetween.toInt_mean last
  case rem => exact (congrArg (· - 1) hrem).trans (BitVec.sub_self 1)

end Sys2Proof.Machine
end

section
/-! The statements of 40_protocol_engine.md on single engine steps (rules R61, R63, R66, R68 to R73): which step the engine
has, what it depends on, and what each of the seven leaves. -/

namespace Sys2Proof.Machine

open Sys2Proof.Safety

/-! ## The bits of STATUS that the engine's steps set and clear (rule R54) -/

theorem getLsbD_statusWord_busy (s : State) (d : Level) : (s.statusWord d).getLsbD 0 = s.busy :=
  (statusWord_bits s d).1

theorem getLsbD_statusWord_done (s : State) (d : Level) : (s.statusWord d).getLsbD 2 = s.done := by
  obtain ⟨_, _, hdone, _⟩ := statusWord_bits s d
  exact hdone

theorem getLsbD_statusWord_timeout (s : State) (d : Level) : (s.statusWord d).getLsbD 3 = s.timeout := by
  obtain ⟨_, _, _, htimeout, _⟩ := statusWord_bits s d
  exact htimeout

theorem getLsbD_statusWord_sck (s : State) (d : Level) : (s.statusWord d).getLsbD 8 = s.sck := by
  obtain ⟨_, _, _, _, _, _, hsck⟩ := statusWord_bits s d
  exact hsck

/-! ## Which step the engine has -/

/-- Settles O10: a host operation always completes, an engine step faults out of its phase only, and a step offers the one
that PHASE names. -/
theorem noStepFaults : Obligations.NoStepFaults := by
  refine ⟨fun i s f => ?faults, fun i s r => ?refuses, fun s f => ?step⟩
  case faults =>
    cases f
    cases hi : i.isHost with
    | true =>
      obtain ⟨t, he⟩ := exec_host_next hi s
      simp [he]
    | false => rcases exec_engine_cases hi s with ⟨hp, he⟩ | ⟨hp, he⟩ <;> simp [hp, he]
  case refuses =>
    cases hi : i.isHost with
    | true =>
      obtain ⟨t, he⟩ := exec_host_next hi s
      simp [he]
    | false => rcases exec_engine_cases hi s with ⟨_, he⟩ | ⟨_, he⟩ <;> simp [he]
  case step =>
    cases hs : s.select with
    | run i =>
      rw [step_of_select_run hs]
      rcases select_run_cases hs with ⟨hi, _⟩ | ⟨_, hp⟩
      · obtain ⟨t, he⟩ := exec_host_next hi s.advance
        simp [he]
      · simp [exec_of_decodePhase (s := s.advance) (by rwa [State.advance_phase])]
    | reset => simp [step, hs]
    | unsupported why => simp [step, hs]

/-- An engine step is enabled exactly in the phase that names it (rule R61). -/
theorem exec_engine_next_iff {i : Instr} (hi : i.isHost = false) (s : State) :
    (∃ t, exec i s = .next t) ↔ decodePhase s.phase = some i := by
  rcases exec_engine_cases hi s with ⟨hp, he⟩ | ⟨hp, he⟩ <;> simp [hp, he]

/-- Outside IDLE, PHASE names a step (rule R61). -/
theorem exists_decodePhase {p : Phase} (h : p ≠ .idle) : ∃ i, decodePhase p = some i := by
  cases p with
  | idle => exact absurd rfl h
  | _ => exact ⟨_, rfl⟩

/-! ## What an engine step depends on -/

/-- The block of `s` in the outside world of `o`: the turns and levels to come, and what the host has read. -/
def State.within (s o : State) : State :=
  { s with
    turns := o.turns
    turnIx := o.turnIx
    line := o.line
    drawIx := o.drawIx
    returned := o.returned }

/-- Two states with the same block and parameters differ in their outside world alone. -/
theorem eq_within_of_sameBlock {s s' : State} (h : SameBlock s s') (hparams : s'.params = s.params) :
    s' = s.within s' := by
  obtain ⟨hsck, hphase, hbitcnt, hacc, hn, hrem, hsum, hwcnt, hdone, htimeout, hreject, hresult, hraw⟩ := h
  simp only [State.within, ← hsck, ← hphase, ← hbitcnt, ← hacc, ← hn, ← hrem, ← hsum, ← hwcnt, ← hdone, ← htimeout,
    ← hreject, ← hresult, ← hraw, ← hparams]

theorem sameBlock_within (s o : State) : SameBlock s (s.within o) := by
  simp [SameBlock, State.within]

/-- A draw uses up a level of the outside world. -/
theorem State.afterDraw_within (s o : State) : (s.within o).afterDraw = s.afterDraw.within o.afterDraw := by
  cases hline : o.line with
  | nil =>
    rw [State.afterDraw_of_no_line hline, State.afterDraw_of_no_line (s := s.within o) hline]
    simp [State.within]
  | cons d rest =>
    rw [State.afterDraw_of_line hline, State.afterDraw_of_line (s := s.within o) hline]
    simp [State.within]

theorem pollWith_within (d : Level) (s o : State) : pollWith d (s.within o) = (pollWith d s).within o := by
  cases d with
  | false => rfl
  | true =>
    simp only [pollWith, State.within]
    cases s.params.readyTimeout with
    | none => rfl
    | some k => by_cases hk : s.wcnt + 1 ≥ k <;> simp [hk, State.timeOut]

theorem finishNext_within (s o : State) : finishNext (s.within o) = (finishNext s).within o := by
  unfold finishNext
  rw [apply_ite (State.within · o)]
  rfl

/-- The outside world reaches an engine step through the one level that POLL and SAMPLE draw (rule R61). -/
theorem engineNext_within {i : Instr} {s o : State} (hi : i.isHost = false)
    (hdraw : i = .poll ∨ i = .sample → o.dout = s.dout) :
    ∃ o', engineNext i (s.within o) = (engineNext i s).within o' := by
  have hdout : (s.within o).dout = o.dout := State.dout_congr rfl rfl
  cases i with
  | poll =>
    refine ⟨o.afterDraw, ?_⟩
    rw [engineNext, State.afterDraw_within, pollWith_within, hdout, hdraw (.inl rfl)]
    rfl
  | sample =>
    refine ⟨o.afterDraw, ?_⟩
    rw [engineNext, State.afterDraw_within, hdout, hdraw (.inr rfl)]
    rfl
  | finish => exact ⟨o, finishNext_within s o⟩
  | rise | fall | xrise | xfall => exact ⟨o, rfl⟩
  | _ => cases hi

/-- Settles O11: PHASE names the one step, and the same step from the same block ends in the same block. -/
theorem engineStepIsFunctionOfStateAndDraw : Obligations.EngineStepIsFunctionOfStateAndDraw := by
  refine ⟨?idle, ?unique, fun i s hi => exec_engine_next_iff hi s, ?function⟩
  case idle =>
    intro i hi s hp
    rw [exec_engine_next_iff hi, hp]
    exact nofun
  case unique =>
    intro s hp
    obtain ⟨i, hstep⟩ := exists_decodePhase hp
    refine ⟨i, decodePhase_isHost hstep, fun j hj => ?_⟩
    rw [exec_engine_next_iff hj, hstep, Option.some.injEq, eq_comm]
  case function =>
    intro i s s' t hi hblock hparams hdraw h
    have hp : decodePhase s.phase = some i := (exec_engine_next_iff hi s).1 ⟨t, h⟩
    rw [exec_of_decodePhase hp] at h
    cases h
    obtain ⟨o, he⟩ := engineNext_within (s := s) hi hdraw
    rw [eq_within_of_sameBlock hblock hparams]
    exact ⟨_, exec_of_decodePhase (s := s.within s') hp, by rw [he]; exact sameBlock_within ..⟩

/-! ## POLL (rule R66) -/

/-- Settles O13: LOW ends the wait; HIGH goes on waiting, with no timeout, below it or at it. -/
theorem pollStep : Obligations.PollStep := by
  intro s hp
  have hexec : exec .poll s = .next (pollWith s.dout s.afterDraw) := inPhase_of_phase hp
  refine ⟨fun hd => ?ready, fun hd hnone => ?noTimeout, fun k hd hk hle => ⟨?expired, fun d => ?status⟩,
    fun k hd hk hlt => ?counts⟩
  case ready => rw [hexec, hd]; rfl
  case noTimeout => simp [hexec, hd, pollWith, hnone]
  case expired => rw [hexec, hd, pollWith_of_expired (by simpa using hk) (by simpa using hle)]; rfl
  case status => exact ⟨getLsbD_statusWord_timeout _ d, getLsbD_statusWord_busy _ d⟩
  case counts => simp [hexec, hd, pollWith, hk, hlt]

/-! ## A data pulse (rules R68 to R70) -/

/-- Settles O14: RISE raises the clock, and a POLL leaves it. -/
theorem riseStep : Obligations.RiseStep := by
  intro s
  refine ⟨fun hp => ⟨inPhase_of_phase hp, getLsbD_statusWord_sck _⟩, fun t h hready => ?_⟩
  obtain ⟨_, rfl⟩ := inPhase_eq_next_iff.1 h
  exact ⟨by simp [pollWith_frame], by rw [hready]; rfl⟩

/-- Settles O15: `b` sampled bits stand below bit `b` of ACC, and before a SAMPLE `b` is at most 23. -/
theorem sampleStep : Obligations.SampleStep := by
  intro s hp
  have hshift := toNat_shiftIn s.acc s.dout
  refine ⟨?next, hshift, fun hinv => ?noLoss⟩
  case next =>
    have hexec : exec .sample s = .next (sampleWith s.dout s.afterDraw) := inPhase_of_phase hp
    simp [hexec, sampleWith, shiftIn]
  case noLoss =>
    obtain ⟨hbitcnt, hacc⟩ := hinv.before_sample (.inr hp)
    have hlt : s.acc.toNat < 2 ^ 23 := hacc.trans_le (Nat.pow_le_pow_right (by decide) hbitcnt)
    have hd := s.dout.toNat_lt
    exact ⟨Nat.testBit_lt_two_pow hlt, hshift.trans (Nat.mod_eq_of_lt (by omega))⟩

/-- Settles O16: both ways FALL goes on lower the clock, and a pulse more is counted. -/
theorem fallStep : Obligations.FallStep := by
  intro s hp
  have hexec : exec .fall s = .next (fallNext s) := inPhase_of_phase hp
  rw [hexec]
  refine ⟨fun hlast => ?last, fun hmore => ?more, fun t d h => ?status, fun t hinv h => ?count⟩
  case last =>
    rcases fallNext_cases s with ⟨_, he⟩ | ⟨hmore, _⟩
    · rw [he]
    · exact absurd hlast hmore
  case more =>
    rcases fallNext_cases s with ⟨hlast, _⟩ | ⟨_, he⟩
    · exact absurd hlast hmore
    · rw [he]
  case status => cases h; exact getLsbD_statusWord_sck _ d
  case count =>
    cases h
    obtain ⟨hbitcnt, _⟩ := hinv.after_sample hp
    have hsucc : (fallNext s).bitcnt = s.bitcnt + 1 := rfl
    rw [hsucc]
    bv_omega

/-! ## The extra pulse (rules R63, R71, R72) -/

/-- Settles O17: XRISE raises the clock after 24 data pulses. -/
theorem xriseStep : Obligations.XriseStep := by
  intro s hp
  exact ⟨inPhase_of_phase hp, getLsbD_statusWord_sck _, fun hinv => hinv.transferred (.inl hp)⟩

/-- Settles O18: neither half of the extra pulse draws, and each does the same before any device. -/
theorem extraPulseIgnoresDataLine : Obligations.ExtraPulseIgnoresDataLine := by
  intro i s t hi h
  rcases hi with rfl | rfl
  all_goals
    obtain ⟨hp, rfl⟩ := inPhase_eq_next_iff.1 h
    exact ⟨by simp [drew], fun l k => inPhase_of_phase hp⟩

/-- Settles O19: XFALL lowers the clock, and none of the steps that FINISH, IDLE and WAIT have raises it. -/
theorem xfallStep : Obligations.XfallStep := by
  intro s
  refine ⟨fun hp => ⟨inPhase_of_phase hp, getLsbD_statusWord_sck _⟩, fun t hlow hphase h => ?_⟩
  rcases step_block_cases h with ⟨i, n, _, _, _, rfl⟩ | ⟨i, _, _, _, hframe⟩ | ⟨i, _, hp, rfl⟩ | ⟨_, rfl⟩
  · simpa using hlow
  · exact hframe.sck.trans hlow
  · rcases engineNext_sck_cases i s.advance with hclock | hkeep
    · rcases hphase with hq | hq | hq <;> rw [hq] at hp <;> cases hp <;> simp at hclock
    · simpa [hkeep] using hlow
  · simp

/-! ## FINISH (rule R73) -/

/-- A transaction of one read, at its FINISH, has summed nothing before (rules R19 to R21). -/
theorem sum_eq_zero_of_single {s : State} (hinv : Inv s) (hp : s.phase = .finish) (hn : s.n = 1) :
    s.sum = 0 := by
  obtain ⟨hpos, hle, _⟩ := hinv.in_flight (by simp [hp])
  obtain ⟨hlow, hhigh⟩ := hinv.sum_range
  have hone : s.n.toNat = 1 := by rw [hn]; rfl
  have hrem : s.rem.toNat = 1 := by omega
  rw [hone, hrem] at hlow hhigh
  exact BitVec.eq_of_toInt_eq (by simp; omega)

/-- Settles O20: the read goes to RAW and SUM either way, and the last one leaves the mean. -/
theorem finishStep : Obligations.FinishStep := by
  intro s hp
  have hexec : exec .finish s = .next (finishNext s) := inPhase_of_phase hp
  have hlast_iff : s.rem - 1 = 0 ↔ s.rem = 1 := by constructor <;> intro h <;> bv_omega
  simp only [hexec, hlast_iff, ne_eq]
  refine ⟨fun hmore => ?more, fun hlast => ?last, fun t d hlast h => ?status, fun t hinv h => ?exact⟩
  case more =>
    rcases finishNext_cases s with ⟨hlast, _⟩ | ⟨_, he⟩
    · exact absurd hlast hmore
    · rw [he]; rfl
  case last => rw [finishNext_of_last hlast]; rfl
  case status =>
    cases h
    rw [finishNext_of_last hlast]
    exact ⟨getLsbD_statusWord_done _ d, getLsbD_statusWord_busy _ d⟩
  case exact =>
    cases h
    obtain ⟨hpos, _⟩ := hinv.in_flight (by simp [hp])
    obtain ⟨_, _, _, _, hrem, hsum, _⟩ := finishNext_frame s
    refine ⟨by rw [hsum, hinv.toInt_nextSum hp]; rfl, by rw [hrem, toNat_sub_one hpos], fun hlast => ⟨?_, fun hn => ?_⟩⟩
    · obtain ⟨hlow, hhigh⟩ := hinv.mean_range hp hlast
      rw [finishNext_of_last hlast]
      exact toInt_trunc32 (by omega) (by omega)
    · rw [finishNext_of_last hlast]
      exact toInt_mean_of_single (sum_eq_zero_of_single hinv hp hn) hn

end Sys2Proof.Machine
end

section
/-! The hang of 40_protocol_engine.md (rules R67, R102): without READY_TIMEOUT, a device that never answers LOW keeps the
engine polling. -/

namespace Sys2Proof.Safety.SameTransaction

open Sys2Proof.Machine

theorem refl (s : State) : SameTransaction s s := by
  simp [SameTransaction, SameBlock]

theorem trans {s t u : State} (hst : SameTransaction s t) (htu : SameTransaction t u) : SameTransaction s u := by
  obtain ⟨hsck, hphase, hbitcnt, hacc, hn, hrem, hsum, hwcnt, hdone, htimeout, _, hresult, hraw⟩ := hst
  obtain ⟨hsck', hphase', hbitcnt', hacc', hn', hrem', hsum', hwcnt', hdone', htimeout', _, hresult', hraw'⟩ := htu
  exact ⟨hsck'.trans hsck, hphase'.trans hphase, hbitcnt'.trans hbitcnt, hacc'.trans hacc, hn'.trans hn,
    hrem'.trans hrem, hsum'.trans hsum, hwcnt'.trans hwcnt, hdone'.trans hdone, htimeout'.trans htimeout, rfl,
    hresult'.trans hresult, hraw'.trans hraw⟩

end Sys2Proof.Safety.SameTransaction

namespace Sys2Proof.Machine

open Sys2Proof.Safety

/-! ## The next draws -/

theorem levelAt_zero (s : State) : levelAt s 0 = s.dout := by
  cases hline : s.line with
  | nil => simp [levelAt, State.dout_of_no_line hline, hline]
  | cons d rest => simp [levelAt, State.dout_of_line hline, hline]

theorem levelAt_afterDraw (s : State) (j : Nat) : levelAt s.afterDraw j = levelAt s (j + 1) := by
  cases hline : s.line with
  | nil => simp [levelAt, State.afterDraw_of_no_line hline, hline, Nat.add_right_comm, Nat.add_assoc]
  | cons d rest => simp [levelAt, State.afterDraw_of_line hline, hline]

/-- `s` with the turns `ts` still to come. -/
def State.setTurns (ts : List Turn) (s : State) : State := { s with turns := ts }

/-- A draw does not look at the turns. -/
theorem State.afterDraw_setTurns (ts : List Turn) (s : State) :
    (s.setTurns ts).afterDraw = s.afterDraw.setTurns ts := by
  cases hline : s.line with
  | nil => rw [afterDraw_of_no_line hline, afterDraw_of_no_line (s := s.setTurns ts) hline]; rfl
  | cons d rest => rw [afterDraw_of_line hline, afterDraw_of_line (s := s.setTurns ts) hline]; rfl

/-- The state after `k` draws: so many levels are used up, the listed ones first (rule R11). -/
def State.afterDraws (k : Nat) (s : State) : State :=
  { s with line := s.line.drop k, drawIx := s.drawIx + (k - s.line.length) }

theorem State.afterDraws_succ (k : Nat) (s : State) : s.afterDraws (k + 1) = s.afterDraw.afterDraws k := by
  cases hline : s.line with
  | nil => simp [afterDraws, afterDraw_of_no_line hline, hline, Nat.add_assoc, Nat.add_comm 1 k]
  | cons d rest => simp [afterDraws, afterDraw_of_line hline, hline]

/-! ## One step of the hang -/

/-- A POLL that sees HIGH without READY_TIMEOUT uses up a level and changes nothing else (rule R66). -/
theorem engineNext_poll_of_hang {s : State} (hnone : s.params.readyTimeout = none) (hd : s.dout = true) :
    engineNext .poll s = s.afterDraw := by
  simp [engineNext, pollWith, hd, hnone]

/-- While the device is not ready, a step that is no reset keeps the transaction waiting (rules R67, R87). -/
theorem step_keeps_hang {s t : State} (hp : s.phase = .wait) (hnone : s.params.readyTimeout = none)
    (hreset : s.select ≠ .reset) (hd : s.select = .run .poll → s.dout = true) (h : step s = .next t) :
    SameTransaction s t := by
  rcases step_block_cases h with ⟨i, n, _, ⟨hidle, _⟩, _, _⟩ | ⟨i, _, _, _, hframe⟩ | ⟨i, hs, hi, rfl⟩ | ⟨hs, _⟩
  · simp [hp] at hidle
  · exact hframe
  · rw [hp] at hi
    cases hi
    rw [engineNext_poll_of_hang (by simpa using hnone) (by simpa using hd hs)]
    simp [SameTransaction, SameBlock]
  · exact absurd hs hreset

/-! ## Runs of the hang -/

/-- As long as every POLL draws HIGH, a run without a reset keeps the transaction waiting (rules R67, R102). -/
theorem run_keeps_hang {s t : State} {k : Nat} (hp : s.phase = .wait) (hnone : s.params.readyTimeout = none)
    (hrun : ∀ j u, j < k → run j s = .next u → u.select ≠ .reset ∧ (u.select = .run .poll → u.dout = true))
    (h : run k s = .next t) : SameTransaction s t ∧ t.params = s.params := by
  induction k generalizing s with
  | zero => cases h; exact ⟨.refl _, rfl⟩
  | succ k ih =>
    obtain ⟨u, hstep, hrest⟩ := run_succ_eq_next h
    obtain ⟨hreset, hd⟩ := hrun 0 s (by omega) rfl
    have hsame := step_keeps_hang hp hnone hreset hd hstep
    have hparams := parametersNeverChange s u hstep
    obtain ⟨hsame', hparams'⟩ := ih (hsame.phase.trans hp) (by rwa [hparams])
      (fun j v hj hv => hrun (j + 1) v (by omega) (by rwa [run_succ_of_next hstep])) hrest
    exact ⟨hsame.trans hsame', hparams'.trans hparams⟩

/-- Turns of the engine against draws that are HIGH are as many POLLs (rule R67). -/
theorem run_hang {s : State} {k : Nat} {more : List Turn} (hp : s.phase = .wait)
    (hnone : s.params.readyTimeout = none) (ht : s.turns = List.replicate k Turn.engine ++ more)
    (hd : ∀ j, j < k → levelAt s j = true) : run k s = .next ((s.setTurns more).afterDraws k) := by
  induction k generalizing s with
  | zero =>
    obtain rfl : s.turns = more := by simpa using ht
    simp [State.afterDraws, State.setTurns]
  | succ k ih =>
    rw [List.replicate_succ, List.cons_append] at ht
    have hwait : decodePhase s.phase = some .poll := by rw [hp]; rfl
    have hhigh : s.dout = true := (levelAt_zero s).symm.trans (hd 0 (by omega))
    have hstep : step s = .next (engineNext .poll (s.setTurns (List.replicate k Turn.engine ++ more))) :=
      (step_of_engine ht hwait).trans (exec_of_decodePhase hwait)
    rw [engineNext_poll_of_hang (s := s.setTurns (List.replicate k Turn.engine ++ more)) hnone hhigh,
      State.afterDraw_setTurns] at hstep
    rw [run_succ_of_next hstep, State.afterDraws_succ, State.afterDraw_setTurns]
    refine ih (s := s.afterDraw.setTurns _) ((State.afterDraw_phase s).trans hp)
      ((congrArg _ (State.afterDraw_params s)).trans hnone) rfl ?_
    intro j hj
    exact (levelAt_afterDraw s j).trans (hd (j + 1) (by omega))

/-- Settles O54: a POLL that draws HIGH leaves the block, no host access disturbs it, and each step is such a POLL or such
an access. -/
theorem unreadyDeviceHangsPolling : Obligations.UnreadyDeviceHangsPolling := by
  refine ⟨fun s hp hnone hs hd => ?poll, fun s t k hp hnone hrun h => ?anyRun,
    fun s k more hp hnone ht hd => run_hang hp hnone ht hd⟩
  case poll =>
    rw [step_of_select_run hs, exec_of_decodePhase (by rw [State.advance_phase, hp]; rfl),
      engineNext_poll_of_hang (by simpa using hnone) (by simpa using hd)]
  case anyRun =>
    obtain ⟨hsame, hparams⟩ := run_keeps_hang hp hnone hrun h
    have hwait : t.phase = .wait := hsame.phase.trans hp
    have hbusy : t.busy = true := by rw [State.busy, hwait]; rfl
    refine ⟨hsame, hparams, hbusy, fun d => (getLsbD_statusWord_busy t d).trans hbusy, by rw [hwait]; rfl,
      fun hinv => ?_⟩
    obtain ⟨_, _, _, hdone, _⟩ := hinv.in_flight (by simp [hp])
    exact hsame.done.trans hdone

end Sys2Proof.Machine
end

section
/-! One read as the device sees it on the two lines (rules R62, R63, R75): the wait, the data pulses, the extra pulse and the
decode, in the order in which the engine runs them. -/

namespace Sys2Proof.Safety

open Sys2Proof.Machine

/-! ## The pins along a run -/

theorem pinTrace_succ_of_next {k : Nat} {s t : State} (h : step s = .next t) :
    pinTrace (k + 1) s = (t.sck, drew s t) :: pinTrace k t := by
  rw [pinTrace, h]

/-- The pins of a run in two parts. -/
theorem pinTrace_add {j k : Nat} {s t : State} (h : run j s = .next t) :
    pinTrace (j + k) s = pinTrace j s ++ pinTrace k t := by
  induction j generalizing s with
  | zero => cases h; rw [Nat.zero_add]; rfl
  | succ j ih =>
    obtain ⟨u, hstep, hrest⟩ := run_succ_eq_next h
    rw [Nat.add_right_comm, pinTrace_succ_of_next hstep, pinTrace_succ_of_next hstep, ih hrest, List.cons_append]

/-! ## Edges of the clock -/

theorem risingEdges_replicate_low (n : Nat) (ls : List Level) :
    risingEdges false (List.replicate n false ++ ls) = risingEdges false ls := by
  induction n with
  | zero => rfl
  | succ n ih => simpa [List.replicate_succ, risingEdges] using ih

theorem fallingEdges_replicate_low (n : Nat) (ls : List Level) :
    fallingEdges false (List.replicate n false ++ ls) = fallingEdges false ls := by
  induction n with
  | zero => rfl
  | succ n ih => simpa [List.replicate_succ, fallingEdges] using ih

/-- However long the wait, SCK stays low through it, and 25 pulses follow (rule R75). -/
theorem readPins_edges (p : Nat) :
    risingEdges false ((readPins p).map Prod.fst) = 25 ∧ fallingEdges false ((readPins p).map Prod.fst) = 25 := by
  simp only [readPins, List.append_assoc, List.map_append, List.map_replicate, risingEdges_replicate_low,
    fallingEdges_replicate_low]
  decide

end Sys2Proof.Safety

namespace Sys2Proof.Machine

open Sys2Proof.Safety

/-! ## The engine's turns -/

theorem readsDataLine_engine_iff {i : Instr} (hi : i.isHost = false) : readsDataLine i ↔ i = .poll ∨ i = .sample := by
  constructor
  · rintro (rfl | rfl | rfl)
    · exact .inl rfl
    · exact .inr rfl
    · cases hi
  · exact Or.imp_right .inl

/-- The engine's turn, as the device sees it: where it leaves SCK, and whether it is a step that samples (rule R15). -/
theorem pinTrace_engine {s : State} {i : Instr} (hp : decodePhase s.phase = some i) (k : Nat) (line : List Level)
    (turns : List Turn) :
    pinTrace (k + 1) (s.facing line (.engine :: turns)) =
      ((engineNext i (s.facing line turns)).sck, decide (i = .poll ∨ i = .sample)) ::
        pinTrace k (engineNext i (s.facing line turns)) := by
  have hstep : step (s.facing line (.engine :: turns)) = .next (engineNext i (s.facing line turns)) :=
    (step_of_engine (s := s.facing line (.engine :: turns)) rfl hp).trans
      (exec_of_decodePhase (s := s.facing line turns) hp)
  have hdrew : drew (s.facing line (.engine :: turns)) (engineNext i (s.facing line turns)) =
      decide (i = .poll ∨ i = .sample) := by
    have hi := decodePhase_isHost hp
    rw [Bool.eq_iff_iff, decide_eq_true_iff]
    exact (drew_engineNext hi (s.facing line turns)).trans (readsDataLine_engine_iff hi)
  rw [pinTrace_succ_of_next hstep, hdrew]

theorem pinTrace_poll {s : State} (hp : s.phase = .wait) (k : Nat) (d : Level) (line : List Level)
    (turns : List Turn) :
    pinTrace (k + 1) (s.facing (d :: line) (.engine :: turns)) =
      (s.sck, true) :: pinTrace k ((pollWith d s).facing line turns) := by
  have hnext : engineNext .poll (s.facing (d :: line) turns) = (pollWith d s).facing line turns :=
    pollWith_facing d line turns s
  have hsck : ((pollWith d s).facing line turns).sck = s.sck := (pollWith_frame d s).1
  rw [pinTrace_engine (i := .poll) (by rw [hp]; rfl), hnext, hsck]
  rfl

/-- Through the wait SCK stays as it was and every step samples (rules R62, R66). -/
theorem pinTrace_wait {s : State} {waits : Nat} (hp : s.phase = .wait) (htime : s.allows waits) (line : List Level)
    (turns : List Turn) :
    pinTrace (waits + 1)
        (s.facing (List.replicate waits true ++ false :: line) (List.replicate (waits + 1) Turn.engine ++ turns)) =
      List.replicate (waits + 1) (s.sck, true) := by
  induction waits generalizing s with
  | zero => exact pinTrace_poll hp 0 false line turns
  | succ waits ih =>
    obtain ⟨w, hpoll, hleft⟩ := pollWith_true_of_allows htime
    rw [List.replicate_succ, List.replicate_succ, List.cons_append, List.cons_append, pinTrace_poll hp, hpoll,
      ih (s := s.setWcnt w) hp hleft]
    rfl

theorem pinTrace_pulse {s : State} (hp : s.phase = .rise) (k : Nat) (d : Level) (line : List Level)
    (turns : List Turn) :
    pinTrace (k + 3) (s.facing (d :: line) (.engine :: .engine :: .engine :: turns)) =
      [(true, false), (true, true), (false, false)] ++ pinTrace k ((pulse d s).facing line turns) := by
  rw [pinTrace_engine (i := .rise) (by rw [hp]; rfl)]
  refine congrArg (_ :: ·) ((pinTrace_engine (s := (s.setSck true).setPhase .sample) rfl (k + 1) (d :: line)
    (.engine :: turns)).trans ?_)
  exact congrArg (_ :: ·) (pinTrace_engine (s := sampleWith d ((s.setSck true).setPhase .sample)) rfl k line turns)

/-- The data pulses that are left, each sampled once while SCK is high (rules R62, R68 to R70). -/
theorem pinTrace_pulses {s : State} {bits : List Level} (hp : s.phase = .rise)
    (hcount : s.bitcnt.toNat + bits.length = 24) (line : List Level) (turns : List Turn) :
    pinTrace (3 * bits.length) (s.facing (bits ++ line) (List.replicate (3 * bits.length) Turn.engine ++ turns)) =
      (List.replicate bits.length [(true, false), (true, true), (false, false)]).flatten := by
  induction bits generalizing s with
  | nil => rfl
  | cons d ds ih =>
    rw [List.length_cons] at hcount
    rw [List.length_cons, Nat.mul_add_one, List.replicate_succ (n := ds.length), List.flatten_cons]
    simp only [List.replicate_succ, List.cons_append]
    rw [pinTrace_pulse hp]
    cases ds with
    | nil => rfl
    | cons d' ds =>
      rw [List.length_cons] at hcount
      have hmore : s.bitcnt + 1 ≠ 24 := by bv_omega
      rw [pulse_eq, if_neg hmore, ih rfl (by simp; bv_omega)]
      rfl

/-- The extra pulse and the decode, neither of them sampled (rules R63, R71 to R73). -/
theorem pinTrace_extra_pulse {s : State} (hp : s.phase = .xrise) (line : List Level) (turns : List Turn) :
    pinTrace 3 (s.facing line (List.replicate 3 Turn.engine ++ turns)) =
      [(true, false), (false, false), (false, false)] := by
  refine (pinTrace_engine (i := .xrise) (by rw [hp]; rfl) 2 line _).trans (congrArg (_ :: ·) ?_)
  refine (pinTrace_engine (s := (s.setSck true).setPhase .xfall) rfl 1 line _).trans (congrArg (_ :: ·) ?_)
  refine (pinTrace_engine (s := ((s.setSck true).setSck false).setPhase .finish) rfl 0 line _).trans ?_
  have hsck := (finishNext_frame ((((s.setSck true).setSck false).setPhase .finish).facing line turns)).1
  exact congrArg (fun b => [(b, false)]) hsck

/-! ## One whole read -/

/-- The turns and levels of one read, part by part (rules R60, R74). -/
theorem State.facing_read (s : State) {r : DeviceRead} (hlen : r.bits.length = 24) (line : List Level)
    (turns : List Turn) :
    s.facing (r.levels ++ line) (List.replicate r.steps Turn.engine ++ turns) =
      s.facing (List.replicate r.waits true ++ false :: (r.bits ++ line))
        (List.replicate (r.waits + 1) Turn.engine ++
          (List.replicate (3 * r.bits.length) Turn.engine ++ (List.replicate 3 Turn.engine ++ turns))) := by
  have hsteps : r.steps = (r.waits + 1) + (3 * r.bits.length + 3) := by rw [hlen]; rfl
  rw [hsteps, List.replicate_add, List.replicate_add (3 * r.bits.length)]
  simp only [DeviceRead.levels, List.append_assoc, List.cons_append]

/-- One read from a cleared wait shows the device the pins of rule R75. -/
theorem pinTrace_read {s : State} {r : DeviceRead} (hp : s.phase = .wait) (hsck : s.sck = false) (hbitcnt : s.bitcnt = 0)
    (htime : r.inTime s.params s.wcnt) (hlen : r.bits.length = 24) (line : List Level) (turns : List Turn) :
    pinTrace r.steps (s.facing (r.levels ++ line) (List.replicate r.steps Turn.engine ++ turns)) = readPins r.waits := by
  have hne : r.bits ≠ [] := fun h => by simp [h] at hlen
  have hsteps : r.steps = (r.waits + 1) + (3 * r.bits.length + 3) := by rw [hlen]; rfl
  rw [State.facing_read s hlen, hsteps, pinTrace_add (run_wait hp htime ..), pinTrace_wait hp htime, hsck,
    pinTrace_add (run_pulses rfl hne (by simp [hbitcnt, hlen]) ..), pinTrace_pulses rfl (by simp [hbitcnt, hlen]),
    pinTrace_extra_pulse rfl, hlen]
  simp only [readPins, List.append_assoc]
  rfl

/-- Settles O56: the state is a cleared wait with one read's levels and turns, and its pins carry 25 pulses. -/
theorem deviceSeesOneRead : Obligations.DeviceSeesOneRead := by
  intro s r line turns hp hinv htime ht hlen hl
  have hsck := hinv.sck_low (by simp [hp])
  obtain ⟨hbitcnt, _⟩ := hinv.cleared (.inr hp)
  have hpins := pinTrace_read hp hsck hbitcnt htime hlen line turns
  rw [← hl, ← ht] at hpins
  exact ⟨hpins, hsck, readPins_edges r.waits⟩

end Sys2Proof.Machine
end

section
/-! Rule R74's minimum: how many engine steps a transaction in flight still needs at least, which every engine step lowers
by one at most and no host access changes. -/

namespace Sys2Proof.Machine

open Sys2Proof.Safety

/-! ## What is left of a transaction -/

/-- The engine steps that the read in flight still needs at least: one POLL, three for each data pulse, two for the extra
pulse, and FINISH (rules R60, R74). -/
def State.readStepsLeft (s : State) : Nat :=
  match s.phase with
  | .idle => 0
  | .wait => 76 - 3 * s.bitcnt.toNat
  | .rise => 75 - 3 * s.bitcnt.toNat
  | .sample => 74 - 3 * s.bitcnt.toNat
  | .fall => 73 - 3 * s.bitcnt.toNat
  | .xrise => 3
  | .xfall => 2
  | .finish => 1

/-- The engine steps that the transaction in flight still needs at least: 76 for each read after this one (rule R74). -/
def State.stepsLeft (s : State) : Nat := 76 * (s.rem.toNat - 1) + s.readStepsLeft

/-- An accepted command has 76 steps for each of its reads before it (rules R74, R79). -/
theorem stepsLeft_accept {n : BitVec 8} (hn : n ≠ 0) (s : State) : (s.accept n).stepsLeft = 76 * n.toNat := by
  have hpos : n.toNat ≠ 0 := fun h => hn (BitVec.eq_of_toNat_eq h)
  change 76 * (n.toNat - 1) + (76 - 3 * 0) = 76 * n.toNat
  omega

/-- What is left hangs on PHASE, BITCNT and REM. -/
theorem State.stepsLeft_congr {s t : State} (hphase : t.phase = s.phase) (hbitcnt : t.bitcnt = s.bitcnt)
    (hrem : t.rem = s.rem) : t.stepsLeft = s.stepsLeft := by
  simp only [stepsLeft, readStepsLeft, hphase, hbitcnt, hrem]

@[simp] theorem stepsLeft_advance (s : State) : s.advance.stepsLeft = s.stepsLeft :=
  State.stepsLeft_congr (by simp) (by simp) (by simp)

@[simp] theorem stepsLeft_afterDraw (s : State) : s.afterDraw.stepsLeft = s.stepsLeft :=
  State.stepsLeft_congr (by simp) (by simp) (by simp)

theorem stepsLeft_of_sameTransaction {s t : State} (h : SameTransaction s t) : t.stepsLeft = s.stepsLeft := by
  obtain ⟨_, hphase, hbitcnt, _, _, hrem, _⟩ := h
  exact State.stepsLeft_congr hphase hbitcnt hrem

/-- A POLL ends the transaction by the timeout, waits on, or does the first step of its read (rule R66). -/
theorem pollWith_stepsLeft {s : State} (hp : s.phase = .wait) (d : Level) :
    (pollWith d s).phase = .idle ∨ s.stepsLeft ≤ (pollWith d s).stepsLeft + 1 := by
  rcases pollWith_cases d s with ⟨_, he⟩ | ⟨_, _, he⟩ | ⟨k, _, _, _, he⟩ | ⟨k, _, _, _, he⟩
  · right
    simp only [he, State.stepsLeft, State.readStepsLeft, hp]
    omega
  · exact .inr (by rw [he]; exact Nat.le_succ _)
  · exact .inl (he ▸ rfl)
  · exact .inr (by rw [he]; exact Nat.le_succ _)

/-- The 24th FALL leaves the extra pulse to do, and an earlier one the pulses that BITCNT says (rule R70). -/
theorem fallNext_stepsLeft {s : State} (hp : s.phase = .fall) : s.stepsLeft ≤ (fallNext s).stepsLeft + 1 := by
  rcases fallNext_cases s with ⟨hlast, he⟩ | ⟨_, he⟩
  · simp only [he, State.stepsLeft, State.readStepsLeft, hp]
    bv_omega
  · simp only [he, State.stepsLeft, State.readStepsLeft, hp]
    bv_omega

/-- A FINISH that is not the last one leaves a whole read less to do (rule R73). -/
theorem finishNext_stepsLeft {s : State} (hp : s.phase = .finish) :
    (finishNext s).phase = .idle ∨ s.stepsLeft ≤ (finishNext s).stepsLeft + 1 := by
  rcases finishNext_cases s with ⟨_, he⟩ | ⟨hmore, he⟩
  · exact .inl (he ▸ rfl)
  · right
    simp only [he, State.stepsLeft, State.readStepsLeft, finishRead, hp]
    bv_omega

/-- An engine step ends the transaction or does at most one of the steps that are left. -/
theorem engineNext_stepsLeft {i : Instr} {s : State} (hp : decodePhase s.phase = some i) :
    (engineNext i s).phase = .idle ∨ s.stepsLeft ≤ (engineNext i s).stepsLeft + 1 := by
  rcases phase_of_decodePhase hp with
    ⟨rfl, hq⟩ | ⟨rfl, hq⟩ | ⟨rfl, hq⟩ | ⟨rfl, hq⟩ | ⟨rfl, hq⟩ | ⟨rfl, hq⟩ | ⟨rfl, hq⟩
  · simpa [engineNext] using pollWith_stepsLeft (s := s.afterDraw) (by simpa using hq) s.dout
  · right
    simp only [engineNext, State.setPhase, State.setSck, State.stepsLeft, State.readStepsLeft, hq]
    omega
  · right
    simp only [engineNext, sampleWith, State.stepsLeft, State.readStepsLeft, hq, State.afterDraw_rem,
      State.afterDraw_bitcnt]
    omega
  · exact .inr (fallNext_stepsLeft hq)
  · exact .inr (by simp [engineNext, State.stepsLeft, State.readStepsLeft, hq])
  · exact .inr (by simp [engineNext, State.stepsLeft, State.readStepsLeft, hq])
  · exact finishNext_stepsLeft hq

/-- Only the last step that is left sets DONE. -/
theorem engineNext_done_of_stepsLeft {i : Instr} {s : State} (hp : decodePhase s.phase = some i)
    (hleft : 1 < s.stepsLeft) : (engineNext i s).done = s.done := by
  rcases engineNext_completes_or_keeps i s with ⟨rfl, hrem, _⟩ | ⟨_, hkeep⟩
  · have hfinish : s.phase = .finish := by cases hq : s.phase <;> simp [hq, decodePhase] at hp ⊢
    simp [State.stepsLeft, State.readStepsLeft, hfinish, hrem] at hleft
  · exact hkeep

/-! ## Runs -/

theorem engineSteps_succ_of_next {k : Nat} {s t : State} (h : step s = .next t) :
    engineSteps (k + 1) s = (if engineMoves s then 1 else 0) + engineSteps k t := by
  rw [engineSteps, h]

theorem engineMoves_of_select_run {s : State} {i : Instr} (hs : s.select = .run i) : engineMoves s = !i.isHost := by
  rw [engineMoves, hs]

/-- A run that accepts nothing, is not reset and has fewer engine steps than the transaction needs does not complete it;
nor does anything once the transaction has ended without a result. -/
theorem run_keeps_not_done {s t : State} {k : Nat} (hdone : s.done = false)
    (hleft : s.phase = .idle ∨ engineSteps k s < s.stepsLeft)
    (hrun : ∀ j v, j < k → run j s = .next v → v.select ≠ .reset ∧ ∀ i, v.select = .run i → ¬ accepts i v)
    (h : run k s = .next t) : t.done = false := by
  induction k generalizing s with
  | zero => cases h; exact hdone
  | succ k ih =>
    obtain ⟨u, hstep, hrest⟩ := run_succ_eq_next h
    obtain ⟨hreset, haccept⟩ := hrun 0 s (by omega) rfl
    rw [engineSteps_succ_of_next hstep] at hleft
    have hcontinue : u.done = false → (u.phase = .idle ∨ engineSteps k u < u.stepsLeft) → t.done = false :=
      fun hd hl => ih hd hl (fun j v hj hv => hrun (j + 1) v (by omega) (by rwa [run_succ_of_next hstep])) hrest
    rcases step_block_cases hstep with ⟨i, n, hs, ha, _, _⟩ | ⟨i, _, _, _, hframe⟩ | ⟨i, hs, hp, rfl⟩ | ⟨hs, _⟩
    · exact absurd ha (haccept i hs)
    · refine hcontinue (hframe.done.trans hdone) ?_
      rw [hframe.phase, stepsLeft_of_sameTransaction hframe]
      exact hleft.imp_right (Nat.le_add_left ..).trans_lt
    · have hmoves : engineMoves s = true := by rw [engineMoves_of_select_run hs, decodePhase_isHost hp]; rfl
      have hbusy : s.phase ≠ .idle := fun hidle => by rw [hidle] at hp; cases hp
      have hlt := hleft.resolve_left hbusy
      rw [hmoves, if_pos rfl] at hlt
      have hp' : decodePhase s.advance.phase = some i := by rwa [State.advance_phase]
      have hkeep := engineNext_done_of_stepsLeft hp' (by rw [stepsLeft_advance]; omega)
      refine hcontinue (by simpa [hdone] using hkeep) ((engineNext_stepsLeft hp').imp_right fun hle => ?_)
      rw [stepsLeft_advance] at hle
      omega
    · exact absurd hs hreset

/-- A legal command of `n` reads in an idle block is accepted for `n` (rules R79, R83, R84). -/
theorem exec_of_legal_while_idle {i : Instr} {n : BitVec 8} {s : State} (hp : s.phase = .idle)
    (hi : i = .readRaw ∧ n = 1 ∨ n ≠ 0 ∧ i = .readAvg n) : n ≠ 0 ∧ exec i s = .next (s.accept n) := by
  rcases hi with ⟨rfl, rfl⟩ | ⟨hn, rfl⟩
  · exact ⟨by decide, exec_readRaw_of_idle hp⟩
  · exact ⟨hn, by simp [exec_readAvg hn, State.startTransaction, hp]⟩

/-- Settles O57: acceptance leaves 76 engine steps to do for each read. -/
theorem noCompletionBeforeMinimum : Obligations.NoCompletionBeforeMinimum := by
  intro s t u i n k hidle hi hexec hrun hfew h
  obtain ⟨hn, haccept⟩ := exec_of_legal_while_idle hidle hi
  rw [haccept] at hexec
  cases hexec
  exact run_keeps_not_done rfl (.inr (by rwa [stepsLeft_accept hn])) hrun h

end Sys2Proof.Machine
end

section
/-! The statements of 41_host_commands.md on commands (rules R79, R83 to R87): what an accepted, a busy and an illegal command
leave, and the order in which a write to CMD is resolved. -/

namespace Sys2Proof.Machine

open Sys2Proof.Safety

/-! ## Refused commands (rules R86, R87) -/

/-- Bits 5:4 of STATUS hold REJECT's code (rule R54). -/
theorem extractLsb'_statusWord_reject (s : State) (d : Level) : (s.statusWord d).extractLsb' 4 2 = s.reject.code := by
  obtain ⟨_, _, _, _, hreject0, hreject1, _⟩ := statusWord_bits s d
  refine BitVec.eq_of_getLsbD_eq fun j hj => ?_
  rw [BitVec.getLsbD_extractLsb', decide_eq_true hj, Bool.true_and]
  match j, hj with
  | 0, _ => exact hreject0
  | 1, _ => exact hreject1

/-- Settles O26: a legal command that meets a transaction in flight is recorded as BUSY, whose code is 0b10. -/
theorem legalCommandRefusedWhileBusy : Obligations.LegalCommandRefusedWhileBusy :=
  fun _ _ hbusy hi => ⟨exec_of_legal_while_busy hi hbusy, fun d => extractLsb'_statusWord_reject _ d⟩

/-- An illegal command, idle or busy (rule R86). -/
theorem exec_of_illegal {i : Instr} (hi : i = .cmdIllegal00 ∨ i = .cmdIllegal11 ∨ i = .cmdAvgZero ∨ i = .readAvg 0)
    (s : State) : exec i s = .next (s.recordReject .illegal) := by
  rcases hi with rfl | rfl | rfl | rfl <;> rfl

/-- Settles O27: an illegal command looks at no state, and ILLEGAL's code is 0b01. -/
theorem illegalCommandRefused : Obligations.IllegalCommandRefused :=
  fun s _ hi => ⟨exec_of_illegal hi s, fun d => extractLsb'_statusWord_reject _ d⟩

/-! ## Accepted commands (rule R79) -/

/-- Only an accepted command starts a transaction: every other host operation leaves PHASE, and the engine has no step while
IDLE (rules R61, R79). -/
theorem accepts_of_exec_leaves_idle {i : Instr} {s t : State} (h : exec i s = .next t) (hidle : s.phase = .idle)
    (hleft : t.phase ≠ .idle) : accepts i s := by
  cases hhost : i.isHost with
  | true =>
    by_contra hnot
    exact hleft ((exec_host_frame hhost hnot h).phase.trans hidle)
  | false =>
    have hp := (exec_engine_next_iff hhost s).1 ⟨t, h⟩
    rw [hidle] at hp
    cases hp

/-- Settles O25: an idle block accepts for one read or for N, and SCK is low outside a pulse. -/
theorem acceptStartsTransaction : Obligations.AcceptStartsTransaction := by
  refine fun s => ⟨?readRaw, ?readAvg, ?sck, fun i t => accepts_of_exec_leaves_idle⟩
  case readRaw => exact exec_readRaw_of_idle
  case readAvg =>
    intro n hidle hn
    obtain ⟨_, haccept⟩ := exec_of_legal_while_idle hidle (.inr ⟨hn, rfl⟩)
    exact haccept
  case sck => exact fun hinv hidle => hinv.sck_low (by simp [hidle])

/-! ## The order of a command write (rule R85) -/

/-- Every command word that is not legal resolves to ILLEGAL, idle or busy. -/
theorem resolveCommand_of_illegal {w : Word}
    (h : opField w = 0b00#2 ∨ opField w = 0b11#2 ∨ (opField w = 0b10#2 ∧ (nField w).toNat = 0)) (s : State) :
    resolveCommand w s = s.recordReject .illegal :=
  if_pos h

/-- A legal command word resolves to a command of its number of reads: BUSY, or accepted. -/
theorem resolveCommand_of_legal {w : Word} (h : legalCommand w) (s : State) :
    resolveCommand w s = s.startTransaction (commandCount w) := by
  rcases h with hop | ⟨hop, hn⟩
  · simp [resolveCommand, State.startTransaction, commandCount, hop]
  · have hn' : (nField w).toNat ≠ 0 := fun h0 => hn (BitVec.eq_of_toNat_eq h0)
    simp [resolveCommand, State.startTransaction, commandCount, hop, hn']

/-- The operation that a command word decodes to does what rule R85 resolves the word to. -/
theorem exec_decodeCommand (w : Word) (s : State) : exec (decodeCommand w) s = .next (resolveCommand w s) := by
  rcases decodeCommand_cases w with
    ⟨hop, hd⟩ | ⟨hop, hd⟩ | ⟨hop, hd⟩ | ⟨hop, hn, hd⟩ | ⟨hop, hn, hd⟩ <;> rw [hd]
  · rw [resolveCommand_of_illegal (.inl hop)]
    rfl
  · rw [resolveCommand_of_illegal (.inr (.inl hop))]
    rfl
  · rw [resolveCommand_of_legal (.inl hop), commandCount, if_pos hop]
    rfl
  · rw [resolveCommand_of_illegal (.inr (.inr ⟨hop, by rw [hn]; rfl⟩))]
    rfl
  · rw [resolveCommand_of_legal (.inr ⟨hop, hn⟩), commandCount, if_neg (by simp [hop]), exec_readAvg hn]

/-- Settles O28: the write runs the command its word decodes to. -/
theorem commandWriteResolvesInOrder : Obligations.CommandWriteResolvesInOrder := by
  intro s w rest ht
  rw [step_of_write ht, decodeTransaction, exec_decodeCommand]

end Sys2Proof.Machine
end

section
/-! The statements of 42_arithmetic.md (rules R90 to R97): the reading of the 24 bits, the floor mean, and the exact sum and mean
that FINISH leaves. -/

namespace Sys2Proof.Machine

open Sys2Proof.Safety

/-! ## The decoded sample (rules R90, R91) -/

theorem decode24_injective : Function.Injective decode24 := by
  intro raw raw' h
  rw [decode24_eq_toInt, decode24_eq_toInt] at h
  exact BitVec.eq_of_toInt_eq h

/-- Settles O47: decode24 is the library's signed reading, which sign extension keeps and which 24 bits give to each integer
of the range. -/
theorem decodeIsTwosComplement : Obligations.DecodeIsTwosComplement := by
  refine ⟨fun raw => ⟨rfl, decode24_eq_toInt raw, ?extended, decode24_range raw⟩, fun _ _ h => decode24_injective h, ?onto⟩
  case extended => rw [decode24_eq_toInt, BitVec.toInt_signExtend_of_le (by decide)]
  case onto =>
    intro x hlow hhigh
    refine ⟨BitVec.ofInt 24 x, ?_⟩
    rw [decode24_eq_toInt]
    exact BitVec.toInt_ofInt_eq_self (by decide) hlow (by omega)

/-- The nonnegative half: bit 23 is 0 up to 0x7FFFFF. -/
theorem decode24_of_toNat_le {raw : Raw24} (h : raw.toNat ≤ 0x7FFFFF) : decode24 raw = raw.toNat := by
  rw [decode24_eq_toInt, BitVec.toInt_eq_toNat_cond, if_pos (by omega)]

/-- The negative half: bit 23 is 1 from 0x800000 on. -/
theorem decode24_of_le_toNat {raw : Raw24} (h : 0x800000 ≤ raw.toNat) : decode24 raw = (raw.toNat : Int) - 2 ^ 24 := by
  rw [decode24_eq_toInt, BitVec.toInt_eq_toNat_cond, if_neg (by omega)]
  rfl

/-! ## The floor quotient (rules R93, R95) -/

/-- What makes `floorDiv` the floor (rule R93): its value is the one quotient whose interval holds the dividend. -/
theorem floorDiv_eq_iff {a q : Int} {n : BitVec 8} (hn : n ≠ 0) :
    floorDiv a n = q ↔ q * n.toNat ≤ a ∧ a < (q + 1) * n.toNat := by
  obtain ⟨hdiv, hpos⟩ := floorDiv_eq_ediv a hn
  rw [hdiv, Int.ediv_eq_iff_of_pos hpos, add_one_mul]

/-- A negative dividend that leaves a remainder is where the floor and the truncating quotient differ (rule R93). -/
theorem floorDiv_eq_tdiv_sub_one {a : Int} {n : BitVec 8} (hn : n ≠ 0) (ha : a < 0) (hdvd : ¬ (n.toNat : Int) ∣ a) :
    floorDiv a n = Int.tdiv a n.toNat - 1 := by
  obtain ⟨hdiv, hpos⟩ := floorDiv_eq_ediv a hn
  have hneither : ¬ (0 ≤ a ∨ (n.toNat : Int) ∣ a) := by simp [ha, hdvd]
  rw [hdiv, Int.tdiv_eq_ediv, if_neg hneither, Int.sign_eq_one_of_pos hpos, add_sub_cancel_right]

/-- Settles O48: the quotient whose interval holds the dividend, which is unique. -/
theorem floorDivRoundsDown : Obligations.FloorDivRoundsDown := by
  refine ⟨fun a n hn => ?_, rfl⟩
  obtain ⟨hle, hlt⟩ := (floorDiv_eq_iff (a := a) hn).1 rfl
  exact ⟨hle, hlt, fun q hq hq' => ((floorDiv_eq_iff hn).2 ⟨hq, hq'⟩).symm, floorDiv_eq_tdiv_sub_one hn⟩

/-- The discarded remainder (rule R95). -/
theorem floorDiv_remainder_range (a : Int) {n : BitVec 8} (hn : n ≠ 0) :
    0 ≤ a - n.toNat * floorDiv a n ∧ a - n.toNat * floorDiv a n ≤ n.toNat - 1 := by
  obtain ⟨hle, hlt⟩ := (floorDiv_eq_iff (a := a) hn).1 rfl
  rw [add_one_mul] at hlt
  rw [mul_comm (n.toNat : Int)]
  omega

theorem floorDiv_one (a : Int) : floorDiv a 1 = a :=
  (floorDiv_eq_iff (by decide)).2 (by simp)

theorem floorDiv_mul_self (s : Int) {n : BitVec 8} (hn : n ≠ 0) : floorDiv (n.toNat * s) n = s := by
  obtain ⟨hdiv, hpos⟩ := floorDiv_eq_ediv (n.toNat * s) hn
  rw [hdiv, Int.mul_ediv_cancel_left s hpos.ne']

theorem floorDiv_mono {a b : Int} {n : BitVec 8} (hn : n ≠ 0) (h : a ≤ b) : floorDiv a n ≤ floorDiv b n := by
  obtain ⟨hdivA, hpos⟩ := floorDiv_eq_ediv a hn
  obtain ⟨hdivB, _⟩ := floorDiv_eq_ediv b hn
  rw [hdivA, hdivB]
  exact Int.ediv_le_ediv hpos h

/-! ## The sum and the mean of a transaction (rules R92, R94) -/

/-- A transaction in flight has a sample to read, so its divisor is not 0 (rules R86, R97). -/
theorem n_ne_zero_of_busy {s : State} (hinv : Inv s) (hbusy : s.phase ≠ .idle) : s.n ≠ 0 := by
  obtain ⟨hpos, hle, _⟩ := hinv.in_flight hbusy
  intro h
  rw [h] at hle
  exact absurd (hpos.trans hle) (by decide)

/-- At FINISH the sum is of 255 samples at most (rule R92). -/
theorem nextSum_bounds {s : State} (hinv : Inv s) (hp : s.phase = .finish) :
    -2139095040 ≤ nextSum s ∧ nextSum s ≤ 2139094785 := by
  obtain ⟨hlow, hhigh⟩ := hinv.nextSum_range
  obtain ⟨hpos, _, hn, _⟩ := hinv.in_flight (by simp [hp])
  omega

/-- Where the invariant holds, FINISH leaves the sum as an exact integer, and the last one the floor mean of it (rule R73). -/
theorem exec_finish_exact {s : State} (hinv : Inv s) (hp : s.phase = .finish) :
    ∃ t, exec .finish s = .next t ∧ t.sum.toInt = nextSum s ∧
      (s.rem = 1 → t.result.toInt = floorDiv (nextSum s) s.n) := by
  have hexec : exec .finish s = .next (finishNext s) := inPhase_of_phase hp
  obtain ⟨_, _, _, hexact⟩ := finishStep s hp
  obtain ⟨hsum, _, hlast⟩ := hexact _ hinv hexec
  refine ⟨_, hexec, hsum, fun hrem => ?_⟩
  obtain ⟨hmean, _⟩ := hlast (by rw [hrem]; rfl)
  exact hmean

/-- Settles O49: FINISH leaves the exact sum, which is of 255 samples at most. -/
theorem sumNeverWraps : Obligations.SumNeverWraps := by
  intro s hinv hp
  obtain ⟨t, hexec, hsum, _⟩ := exec_finish_exact hinv hp
  exact ⟨t, hexec, hsum, hsum ▸ nextSum_bounds hinv hp⟩

/-- The floor mean of a list of samples is a sample (rule R94). -/
theorem floorDiv_sum_range {samples : List Int} {n : BitVec 8} (hn : n ≠ 0) (hlen : samples.length = n.toNat)
    (hrange : ∀ x ∈ samples, -2 ^ 23 ≤ x ∧ x ≤ 2 ^ 23 - 1) :
    -2 ^ 23 ≤ floorDiv samples.sum n ∧ floorDiv samples.sum n ≤ 2 ^ 23 - 1 := by
  have hlow := samples.card_nsmul_le_sum (-2 ^ 23) fun x hx => (hrange x hx).1
  have hhigh := samples.sum_le_card_nsmul (2 ^ 23 - 1) fun x hx => (hrange x hx).2
  rw [hlen, nsmul_eq_mul] at hlow hhigh
  exact floorDiv_range hn hlow hhigh

/-- Settles O50: a mean of samples is a sample, its remainder is less than their count, and the completing FINISH leaves the
exact mean. -/
theorem meanInSampleRange : Obligations.MeanInSampleRange := by
  refine ⟨fun samples n hn hlen hrange => ?list, fun s hinv hp hrem => ?finish⟩
  case list =>
    obtain ⟨hlow, hhigh⟩ := floorDiv_sum_range hn hlen hrange
    exact ⟨hlow, hhigh, floorDiv_remainder_range samples.sum hn⟩
  case finish =>
    obtain ⟨t, hexec, _, hlast⟩ := exec_finish_exact hinv hp
    have hmean := hlast hrem
    exact ⟨t, hexec, hmean, hmean ▸ hinv.mean_range hp hrem⟩

/-- Settles O51: the laws of the decoder's halves and of the quotient, and the divisor of a transaction. -/
theorem arithmeticLaws : Obligations.ArithmeticLaws := by
  refine ⟨fun raw h => decode24_of_toNat_le h, fun raw raw' hlow hlt => ?negative, fun raw => decode24_injective.eq_iff' rfl,
    floorDiv_one, fun s n hn => floorDiv_mul_self s hn, fun a b n hn h => floorDiv_mono hn h,
    fun s hinv hp => n_ne_zero_of_busy hinv (by simp [hp])⟩
  case negative =>
    have hmax := raw'.isLt
    rw [decode24_of_le_toNat hlow, decode24_of_le_toNat (hlow.trans hlt.le)]
    omega

end Sys2Proof.Machine
end

section
/-! The time intervals of rule R128 are read by no step: two states that differ in them alone step alike (rule R110). -/

namespace Sys2Proof.Machine

/-- `s` on a platform with other time intervals. -/
def State.setTiming (τ : Config.Timing) (s : State) : State := { s with params := { s.params with timing := τ } }

/-! ## What choosing a step and a draw make of other intervals -/

theorem State.select_setTiming (τ : Config.Timing) (s : State) : (s.setTiming τ).select = s.select :=
  (State.schedule_congr (s := s) (s' := s.setTiming τ) rfl rfl rfl s.turns).1

theorem State.advance_setTiming (τ : Config.Timing) (s : State) : (s.setTiming τ).advance = s.advance.setTiming τ := by
  obtain ⟨_, hturns, hix⟩ := State.schedule_congr (s := s) (s' := s.setTiming τ) rfl rfl rfl s.turns
  rw [State.advance_eq (s.setTiming τ), State.advance_eq s]
  simp only [State.setTiming, State.mk.injEq, and_true, true_and]
  exact ⟨hturns, hix⟩

theorem State.afterDraw_setTiming (τ : Config.Timing) (s : State) :
    (s.setTiming τ).afterDraw = s.afterDraw.setTiming τ := by
  cases hline : s.line with
  | nil => rw [State.afterDraw_of_no_line hline, State.afterDraw_of_no_line (s := s.setTiming τ) hline]; rfl
  | cons d rest => rw [State.afterDraw_of_line hline, State.afterDraw_of_line (s := s.setTiming τ) hline]; rfl

theorem State.dout_setTiming (τ : Config.Timing) (s : State) : (s.setTiming τ).dout = s.dout := State.dout_congr rfl rfl

/-! ## What the operations make of them -/

theorem startTransaction_setTiming (n : BitVec 8) (τ : Config.Timing) (s : State) :
    (s.setTiming τ).startTransaction n = (s.startTransaction n).setTiming τ := by
  unfold State.startTransaction
  rw [apply_ite (State.setTiming τ)]
  rfl

/-- POLL looks at READY_TIMEOUT, which is no interval. -/
theorem pollWith_setTiming (d : Level) (τ : Config.Timing) (s : State) :
    pollWith d (s.setTiming τ) = (pollWith d s).setTiming τ := by
  cases d with
  | false => rfl
  | true =>
    cases hlimit : s.params.readyTimeout with
    | none => simp [pollWith, State.setTiming, hlimit]
    | some k =>
      by_cases hk : k ≤ s.wcnt + 1 <;> simp [pollWith, State.setTiming, State.timeOut, hlimit, hk]

theorem finishNext_setTiming (τ : Config.Timing) (s : State) :
    finishNext (s.setTiming τ) = (finishNext s).setTiming τ := by
  unfold finishNext
  rw [apply_ite (State.setTiming τ)]
  rfl

theorem engineNext_setTiming (i : Instr) (τ : Config.Timing) (s : State) :
    engineNext i (s.setTiming τ) = (engineNext i s).setTiming τ := by
  cases i with
  | poll =>
    simp only [engineNext, State.afterDraw_setTiming, State.dout_setTiming]
    exact pollWith_setTiming ..
  | sample => simp only [engineNext, State.afterDraw_setTiming, State.dout_setTiming]; rfl
  | finish => exact finishNext_setTiming τ s
  | _ => rfl

theorem exec_host_setTiming {i : Instr} (hi : i.isHost = true) {s t : State} (τ : Config.Timing) (h : exec i s = .next t) :
    exec i (s.setTiming τ) = .next (t.setTiming τ) := by
  cases i with
  | isReady =>
    cases h
    simp only [exec, execIsReady, State.afterDraw_setTiming, State.dout_setTiming]
    rfl
  | readRaw =>
    cases h
    exact congrArg Host.Outcome.next (startTransaction_setTiming readRawCount τ s)
  | readAvg n =>
    by_cases hn : n = 0
    · subst hn; cases h; rfl
    · rw [exec_readAvg hn] at h ⊢
      cases h
      exact congrArg Host.Outcome.next (startTransaction_setTiming n τ s)
  | rdResult | rdRaw | rdCmd | cmdAvgZero | cmdIllegal00 | cmdIllegal11 | wrRo _ _ => cases h; rfl
  | poll | rise | sample | fall | xrise | xfall | finish => cases hi

/-- Every operation makes the same of a state with other intervals. -/
theorem exec_setTiming {i : Instr} {s t : State} (τ : Config.Timing) (h : exec i s = .next t) :
    exec i (s.setTiming τ) = .next (t.setTiming τ) := by
  cases hi : i.isHost with
  | true => exact exec_host_setTiming hi τ h
  | false =>
    rcases exec_engine_cases hi s with ⟨hp, he⟩ | ⟨_, he⟩ <;> rw [he] at h <;> cases h
    rw [exec_of_decodePhase (s := s.setTiming τ) hp, engineNext_setTiming]

/-- The one refusal of a step: it is that of the unsupported access selected (rules R35, R103). -/
theorem select_of_step_refused {s : State} {r : Refusal} (h : step s = .refused r) :
    ∃ why, s.select = .unsupported why ∧ r = .unsupportedAccess why := by
  obtain ⟨_, hexec, _⟩ := noStepFaults
  cases hs : s.select with
  | run i => exact absurd ((step_of_select_run hs).symm.trans h) (hexec i s.advance r)
  | reset => simp [step, hs] at h
  | unsupported why => exact ⟨why, rfl, by simpa [step, hs, eq_comm] using h⟩

/-- Settles O40: the same operation is selected, and it makes the same of both states but for the intervals; an unsupported
access is refused for the same reason. -/
theorem timingParametersHaveNoEffect : Obligations.TimingParametersHaveNoEffect := by
  intro s τ
  change (∀ t, step s = .next t → step (s.setTiming τ) = .next (t.setTiming τ)) ∧
    ∀ r, step s = .refused r → step (s.setTiming τ) = .refused r
  constructor
  · intro t h
    cases hs : s.select with
    | run i =>
      rw [step_of_select_run hs] at h
      rw [step_of_select_run ((State.select_setTiming τ s).trans hs), State.advance_setTiming]
      exact exec_setTiming τ h
    | reset =>
      simp only [step, hs, State.select_setTiming, State.advance_setTiming] at h ⊢
      cases h
      rfl
    | unsupported why => simp [step, hs] at h
  · intro r h
    obtain ⟨why, hs, rfl⟩ := select_of_step_refused h
    simp only [step, State.select_setTiming, hs]

end Sys2Proof.Machine
end

section
/-! The ready timeout of rule R101: POLLs that see HIGH count, and the k-th of them ends the transaction. -/

namespace Sys2Proof.Machine

open Sys2Proof.Safety

/-! ## Draws one after the other -/

theorem State.afterDraws_zero (s : State) : s.afterDraws 0 = s := by
  simp [State.afterDraws]

/-- The next level after `k` draws. -/
theorem State.dout_afterDraws (k : Nat) (s : State) : (s.afterDraws k).dout = levelAt s k := by
  induction k generalizing s with
  | zero => rw [State.afterDraws_zero, levelAt_zero]
  | succ k ih => rw [State.afterDraws_succ, ih, levelAt_afterDraw]

theorem State.afterDraw_afterDraws (k : Nat) (s : State) : (s.afterDraws k).afterDraw = s.afterDraws (k + 1) := by
  induction k generalizing s with
  | zero => rw [State.afterDraws_succ, State.afterDraws_zero, State.afterDraws_zero]
  | succ k ih => rw [State.afterDraws_succ, ih, State.afterDraws_succ (k + 1)]

/-! ## POLLs that see HIGH under READY_TIMEOUT -/

/-- The engine's turn in WAIT is a POLL. -/
theorem step_of_engine_wait {s : State} {rest : List Turn} (hp : s.phase = .wait) (ht : s.turns = .engine :: rest) :
    step s = .next (pollWith s.dout (s.afterDraw.setTurns rest)) := by
  have hwait : decodePhase s.phase = some .poll := by rw [hp]; rfl
  rw [← State.afterDraw_setTurns]
  exact (step_of_engine ht hwait).trans (exec_of_decodePhase hwait)

/-- A POLL that sees HIGH below the limit counts it (rule R66). -/
theorem step_of_poll_counts {s : State} {rest : List Turn} {limit : Nat} (hp : s.phase = .wait)
    (ht : s.turns = .engine :: rest) (hlimit : s.params.readyTimeout = some limit) (hlt : s.wcnt + 1 < limit)
    (hd : s.dout = true) : step s = .next ((s.afterDraw.setTurns rest).setWcnt (s.wcnt + 1)) := by
  rw [step_of_engine_wait hp ht, hd]
  simp [pollWith, State.setTurns, State.setWcnt, hlimit, hlt]

/-- A POLL that sees HIGH at the limit ends the transaction (rules R66, R101). -/
theorem step_of_poll_expires {s : State} {rest : List Turn} {limit : Nat} (hp : s.phase = .wait)
    (ht : s.turns = .engine :: rest) (hlimit : s.params.readyTimeout = some limit) (hle : limit ≤ s.wcnt + 1)
    (hd : s.dout = true) : step s = .next (s.afterDraw.setTurns rest).timeOut := by
  rw [step_of_engine_wait hp ht, hd, pollWith_of_expired (k := limit)]
  · simpa [State.setTurns] using hlimit
  · simpa [State.setTurns] using hle

/-- Fewer POLLs that see HIGH than READY_TIMEOUT allows are counted, and the transaction goes on waiting (rule R101). -/
theorem run_polls_below_timeout {s : State} {k limit : Nat} {more : List Turn} (hp : s.phase = .wait)
    (hlimit : s.params.readyTimeout = some limit) (hlt : s.wcnt + k < limit)
    (ht : s.turns = List.replicate k Turn.engine ++ more) (hd : ∀ j, j < k → levelAt s j = true) :
    run k s = .next (((s.setTurns more).setWcnt (s.wcnt + k)).afterDraws k) := by
  induction k generalizing s with
  | zero =>
    obtain rfl : s.turns = more := by simpa using ht
    rw [State.afterDraws_zero]
    rfl
  | succ k ih =>
    rw [List.replicate_succ, List.cons_append] at ht
    have hhigh : s.dout = true := (levelAt_zero s).symm.trans (hd 0 (by omega))
    rw [run_succ_of_next (step_of_poll_counts hp ht hlimit (by omega) hhigh), State.afterDraws_succ,
      State.afterDraw_setWcnt, State.afterDraw_setTurns, show s.wcnt + (k + 1) = s.wcnt + 1 + k by omega]
    exact ih ((State.afterDraw_phase s).trans hp) ((congrArg _ (State.afterDraw_params s)).trans hlimit)
      (show s.wcnt + 1 + k < limit by omega) rfl fun j hj => (levelAt_afterDraw s j).trans (hd (j + 1) (by omega))

/-- Settles O55: all POLLs but the last are counted, and the last one meets WCNT + 1 = READY_TIMEOUT. -/
theorem readyTimeoutAfterKPolls : Obligations.ReadyTimeoutAfterKPolls := by
  constructor
  · intro s k more hinv hp hlimit hwcnt ht hd
    rw [List.replicate_succ', List.append_assoc] at ht
    have hcount := run_polls_below_timeout hp hlimit (by omega) ht fun j hj => hd j (by omega)
    rw [hwcnt, Nat.zero_add] at hcount
    have hlast := step_of_poll_expires (s := ((s.setTurns (.engine :: more)).setWcnt k).afterDraws k) hp rfl hlimit
      (le_refl _) ((State.dout_afterDraws ..).trans (hd k (Nat.lt_succ_self k)))
    rw [State.afterDraw_afterDraws] at hlast
    obtain ⟨_, _, _, hdone, _⟩ := hinv.in_flight (by simp [hp])
    exact ⟨hcount, (run_add hcount).trans (run_succ_of_next hlast), hinv.sck_low (by simp [hp]), hdone⟩
  · intro s t hnone hbefore h
    obtain ⟨_, hlife⟩ := timeoutLifeCycle
    obtain ⟨_, _, hset, _⟩ := hlife s t h
    refine Bool.eq_false_iff.2 fun hafter => ?_
    obtain ⟨_, _, _, k, hk, _⟩ := hset hbefore hafter
    rw [hnone] at hk
    cases hk

end Sys2Proof.Machine
end

section
/-! A command that is due together with the completing FINISH (rule R105): the two orders, and what each leaves. -/

namespace Sys2Proof.Machine

open Sys2Proof.Safety

/-- A command word that is not legal resolves to ILLEGAL, idle or busy (rules R85, R86). -/
theorem resolveCommand_of_not_legal {w : Word} (h : ¬ legalCommand w) (s : State) :
    resolveCommand w s = s.recordReject .illegal := by
  refine resolveCommand_of_illegal ?_ s
  rcases decodeCommand_cases w with ⟨hop, _⟩ | ⟨hop, _⟩ | ⟨hop, _⟩ | ⟨hop, hn, _⟩ | ⟨hop, hn, _⟩
  · exact .inl hop
  · exact .inr (.inl hop)
  · exact absurd (.inl hop) h
  · exact .inr (.inr ⟨hop, by rw [hn]; rfl⟩)
  · exact absurd (.inr ⟨hop, hn⟩) h

/-- A legal command word in an idle block is accepted (rules R79, R85). -/
theorem resolveCommand_of_legal_idle {w : Word} (h : legalCommand w) {s : State} (hp : s.phase = .idle) :
    resolveCommand w s = s.accept (commandCount w) := by
  rw [resolveCommand_of_legal h, State.startTransaction, if_neg (not_not_intro hp)]

/-- A legal command word while a transaction is in flight is refused as BUSY (rules R85, R87). -/
theorem resolveCommand_of_legal_busy {w : Word} (h : legalCommand w) {s : State} (hp : s.phase ≠ .idle) :
    resolveCommand w s = s.recordReject .busy := by
  rw [resolveCommand_of_legal h, State.startTransaction, if_pos hp]

/-- While a transaction is in flight a command word writes its code to REJECT and nothing else (rule R100). -/
theorem resolveCommand_of_busy (w : Word) {s : State} (hp : s.phase ≠ .idle) :
    ∃ code, resolveCommand w s = s.recordReject code ∧ (legalCommand w → code = .busy) ∧
      (¬ legalCommand w → code = .illegal) := by
  by_cases h : legalCommand w
  · exact ⟨.busy, resolveCommand_of_legal_busy h hp, fun _ => rfl, absurd h⟩
  · exact ⟨.illegal, resolveCommand_of_not_legal h s, fun hlegal => absurd hlegal h, fun _ => rfl⟩

/-- The engine's turn in FINISH at the last read completes the transaction (rule R73). -/
theorem step_of_completing_finish {s : State} {rest : List Turn} (hp : s.phase = .finish) (hrem : s.rem = 1)
    (ht : s.turns = .engine :: rest) : ∃ t, step s = .next t ∧ t.phase = .idle ∧ t.done = true ∧ t.raw = s.acc ∧
      t.turns = rest ∧ t.params = s.params ∧ t.reject = s.reject := by
  have hfinish : decodePhase s.phase = some .finish := by rw [hp]; rfl
  have hstep := (step_of_engine ht hfinish).trans (exec_of_decodePhase hfinish)
  refine ⟨_, hstep, ?_⟩
  rw [engineNext, finishNext_of_last (s := { s with turns := rest }) hrem]
  simp [finishRead]

/-- Settles O59: after the FINISH the command meets an idle block, before it a block in flight. -/
theorem finishAndCommandInEitherOrder : Obligations.FinishAndCommandInEitherOrder := by
  intro s w more hp hrem
  constructor
  · obtain ⟨u, hfinish, hidle, hdone, hraw, hturns, hparams, _⟩ := step_of_completing_finish (s :=
      { s with turns := .engine :: .host (writeAccess s.params.base .cmd w) :: more }) hp hrem rfl
    have hwrite := commandWriteResolvesInOrder u w more (by rw [hturns, hparams])
    refine ⟨_, (run_succ_of_next hfinish).trans (run_succ_of_next hwrite), ?_⟩
    by_cases hlegal : legalCommand w
    · rw [resolveCommand_of_legal_idle hlegal (s := { u with turns := more }) hidle]
      simp [hlegal, hraw]
    · rw [resolveCommand_of_not_legal hlegal]
      simp [hlegal, hraw, hidle, hdone]
  · have hwrite := commandWriteResolvesInOrder
      { s with turns := .host (writeAccess s.params.base .cmd w) :: .engine :: more } w (.engine :: more) rfl
    obtain ⟨code, hcode, hbusy, hillegal⟩ :=
      resolveCommand_of_busy w (s := { s with turns := .engine :: more }) (by simp [hp])
    obtain ⟨t, hfinish, hidle, hdone, hraw, hturns, _, hreject⟩ := step_of_completing_finish
      (s := State.recordReject code { s with turns := .engine :: more }) hp hrem rfl
    rw [hcode] at hwrite
    exact ⟨t, (run_succ_of_next hwrite).trans (run_succ_of_next hfinish), hidle, hdone, hraw, hturns,
      fun h => hreject.trans (hbusy h), fun h => hreject.trans (hillegal h)⟩

end Sys2Proof.Machine
end

section
/-! Weak fairness (rule R110): the engine's step comes after the host accesses that stand listed before it. -/

namespace Sys2Proof.Machine

open Sys2Proof.Safety

/-- No host operation uses up a turn. -/
theorem exec_host_turns {i : Instr} {s t : State} (hi : i.isHost = true) (h : exec i s = .next t) : t.turns = s.turns := by
  rcases exec_host_cases hi h with
    ⟨_, rfl⟩ | ⟨_, w, rfl⟩ | ⟨_, rfl⟩ | ⟨_, n, _, _, rfl⟩ | ⟨_, _, rfl⟩ | ⟨_, rfl⟩ <;> simp

/-- A host access in flight takes its own turn away and leaves the transaction and the parameters (rules R39, R87). -/
theorem step_of_access_in_flight {s : State} {a : Access} {rest : List Turn} {i : Instr} (hbusy : s.phase ≠ .idle)
    (ht : s.turns = .host a :: rest) (hd : decodeAccess s.params.base a = .ok i) :
    ∃ t, step s = .next t ∧ SameTransaction s t ∧ t.params = s.params ∧ t.turns = rest := by
  have hhost := decodeAccess_isHost hd
  obtain ⟨t, hexec⟩ := exec_host_next hhost { s with turns := rest }
  have hstep := (step_of_access ht hd).trans hexec
  obtain ⟨hsame, hparams⟩ := hostNeverDisturbsTransaction s t a rest ht hbusy hstep
  exact ⟨t, hstep, hsame, hparams, exec_host_turns hhost hexec⟩

/-- The engine moves next when its turn stands first, or none stands listed, while it has a step (rules R10, R61). -/
theorem select_of_decodePhase {s : State} {i : Instr} (hp : decodePhase s.phase = some i)
    (ht : s.turns = [] ∨ ∃ rest, s.turns = .engine :: rest) : s.select = .run i := by
  rcases ht with ht | ⟨rest, ht⟩ <;> simp [State.select, ht, State.schedule, hp]

/-- Host accesses listed before the engine's turn leave the transaction, and use up a turn each. -/
theorem exists_run_select_engine {s : State} {i : Instr} (hp : decodePhase s.phase = some i) (hbusy : s.phase ≠ .idle)
    (hturns : ∀ turn ∈ s.turns, turn = .engine ∨ ∃ a i, turn = .host a ∧ decodeAccess s.params.base a = .ok i) :
    ∃ j t, j ≤ s.turns.length ∧ run j s = .next t ∧ SameTransaction s t ∧ t.select = .run i := by
  induction hs : s.turns generalizing s with
  | nil => exact ⟨0, s, Nat.zero_le _, rfl, .refl s, select_of_decodePhase hp (.inl hs)⟩
  | cons turn rest ih =>
    rw [hs] at hturns
    rcases hturns turn List.mem_cons_self with rfl | ⟨a, i', rfl, hd⟩
    · exact ⟨0, s, Nat.zero_le _, rfl, .refl s, select_of_decodePhase hp (.inr ⟨rest, hs⟩)⟩
    · obtain ⟨u, hstep, hsame, hparams, hrest⟩ := step_of_access_in_flight hbusy hs hd
      obtain ⟨j, t, hj, hrun, hsame', hselect⟩ := ih (s := u) (by rwa [hsame.phase]) (by rwa [hsame.phase])
        (by rw [hrest, hparams]; exact fun turn hmem => hturns turn (List.mem_cons_of_mem _ hmem)) hrest
      exact ⟨j + 1, t, by simpa using hj, (run_succ_of_next hstep).trans hrun, hsame.trans hsame', hselect⟩

/-- Settles O60: PHASE names the engine's step, and no access listed before its turn changes PHASE. -/
theorem engineEventuallySteps : Obligations.EngineEventuallySteps := by
  intro s hbusy hturns
  simp only [decode_access_eq_ok_iff] at hturns
  obtain ⟨i, hp⟩ := exists_decodePhase hbusy
  obtain ⟨j, t, hj, hrun, hsame, hselect⟩ := exists_run_select_engine hp hbusy hturns
  exact ⟨j, t, i, hj, hrun, hsame, hp, hselect⟩

end Sys2Proof.Machine
end

section
/-! The statements of 70_reset_and_hazards.md: which steps bring the block back to IDLE, and what a reset leaves (rules R76,
R116, R118). -/

namespace Sys2Proof.Machine

open Sys2Proof.Safety

/-! ## The end of a transaction (rules R76, R118) -/

/-- Of the engine steps only the completing FINISH and the POLL that times out bring a busy block to IDLE (rules R66, R73). -/
theorem engineNext_ends_transaction {i : Instr} {s : State} (hbusy : s.phase ≠ .idle)
    (hidle : (engineNext i s).phase = .idle) :
    (i = .finish ∧ s.rem = 1 ∧ (engineNext i s).done = true) ∨
    (i = .poll ∧ s.dout = true ∧ (engineNext i s).timeout = true ∧
      ∃ k, s.params.readyTimeout = some k ∧ k ≤ s.wcnt + 1) := by
  cases i with
  | poll =>
    rw [engineNext] at hidle ⊢
    rcases pollWith_cases s.dout s.afterDraw with ⟨_, he⟩ | ⟨_, _, he⟩ | ⟨k, hd, hk, hle, he⟩ | ⟨k, _, _, _, he⟩
    case inr.inr.inl => exact .inr ⟨rfl, hd, by simp [he], k, by simpa using hk, by simpa using hle⟩
    all_goals simp [he, hbusy] at hidle
  | fall => rcases fallNext_cases s with ⟨_, he⟩ | ⟨_, he⟩ <;> simp [engineNext, he] at hidle
  | finish =>
    rw [engineNext] at hidle ⊢
    rcases finishNext_cases s with ⟨hrem, he⟩ | ⟨_, he⟩
    · exact .inl ⟨rfl, hrem, by simp [he]⟩
    · simp [he] at hidle
  | rise | sample | xrise | xfall => simp [engineNext, sampleWith] at hidle
  | _ => exact absurd hidle hbusy

/-- Settles O36: an accepted command starts a transaction and every other host operation keeps PHASE, so the engine or a
reset ends it. -/
theorem transactionEndsOnlyThreeWays : Obligations.TransactionEndsOnlyThreeWays := by
  intro s t h hbusy hidle
  rcases step_block_cases h with ⟨i, n, _, ha, _, _⟩ | ⟨i, _, _, _, hframe⟩ | ⟨i, hs, _, rfl⟩ | ⟨hs, _⟩
  · obtain ⟨hp, _⟩ := ha
    exact absurd hp hbusy
  · exact absurd (hframe.phase.symm.trans hidle) hbusy
  · rcases engineNext_ends_transaction (s := s.advance) (by simpa using hbusy) hidle with
      ⟨rfl, hrem, hdone⟩ | ⟨rfl, hd, htimeout, k, hk, hle⟩
    · exact .inl ⟨hs, by simpa using hrem, hdone⟩
    · exact .inr (.inl ⟨hs, by simpa using hd, htimeout, k, by simpa using hk, by simpa using hle⟩)
  · exact .inr (.inr hs)

/-! ## Reset (rule R116) -/

/-- Only an accepted command takes the block out of IDLE. -/
theorem accepts_of_step_leaves_idle {s t : State} (h : step s = .next t) (hidle : s.phase = .idle)
    (hleft : t.phase ≠ .idle) : ∃ i, s.select = .run i ∧ accepts i s := by
  rcases step_block_cases h with ⟨i, n, hs, ha, _, _⟩ | ⟨i, _, _, _, hframe⟩ | ⟨i, _, hp, _⟩ | ⟨_, rfl⟩
  · exact ⟨i, hs, ha⟩
  · exact absurd (hframe.phase.trans hidle) hleft
  · simp [hidle, decodePhase] at hp
  · simp at hleft

/-- A reset leaves the block as it is right after reset. -/
theorem sameBlock_applyReset (s : State) : SameBlock State.reset s.applyReset := by
  simp [SameBlock, State.reset]

/-- While IDLE the engine has no step (rule R61). -/
theorem no_engine_step_of_idle {s : State} (hidle : s.phase = .idle) {i : Instr} (hi : i.isHost = false) :
    ¬ ∃ t, exec i s = .next t := by
  rw [exec_engine_next_iff hi, hidle]
  exact nofun

/-- Settles O42: a reset answers the block's reset values, and IDLE, which only acceptance leaves, is one of them. -/
theorem resetSetsEveryElement : Obligations.ResetSetsEveryElement := by
  refine ⟨fun u v hidle h => accepts_of_step_leaves_idle h hidle, fun s rest ht => ⟨_, step_of_reset ht, ?_⟩⟩
  have hblock := sameBlock_applyReset { s with turns := rest }
  have ⟨hsck, hphase, hbitcnt, hacc, hn, hrem, hsum, hwcnt, hdone, htimeout, hreject, hresult, hraw⟩ := hblock
  exact ⟨hsck, hphase, hbitcnt, hacc, hn, hrem, hsum, hwcnt, hdone, htimeout, hreject, hresult, hraw, hblock,
    fun i => no_engine_step_of_idle hphase⟩

end Sys2Proof.Machine
end
